-- ==== Sys2Proof/Word.lean ====
section
/-! DEFINITION. The bit vectors of the ports and registers: a byte (one lane, one character, one command word), the 32-bit
group word of R21 (`in_word`, WORD) and the 40-bit lane bus of R21 (`in_lanes`, LANES). All values are unsigned (R10). -/

namespace Sys2Proof

/-- A byte: one lane, one character, or the command word `cmd` (R12, R70). -/
abbrev Byte := BitVec 8

/-- The group word of `in_word` and WORD (R52): byte 0 is the most significant. -/
abbrev Word := BitVec 32

/-- The lane bus of `in_lanes` and LANES (R53): lane 0 is the most significant byte. -/
abbrev Lanes := BitVec 40

end Sys2Proof
end

