-- ==== Sys2Proof/Syntax.lean ====
section
/-! DEFINITION. The commands: one constructor for each row of spec/opcode_table.json (R74). -/

namespace Sys2Proof

/-- The field `N = cmd[5:3]`, "an unsigned number 0 to 7 with no scaling and no sign" (R72). -/
abbrev Count := Fin 8

/-- A command (R74) with its count field. The data operands are not in the command word (R72): a meaning reads them from
the input ports. Which counts are legal is `Instr.WellFormed` (R75). -/
inductive Instr where
  /-- `00 nnn 000`, ENC: group word to characters (R123). -/
  | enc (n : Count)
  /-- `00 nnn 001`, DEC: characters to group word (R146). -/
  | dec (n : Count)
  /-- `00 nnn 010`, ENCD: group word to digits (R124). -/
  | encd (n : Count)
  /-- `00 nnn 011`, DECD: digits to group word (R147). -/
  | decd (n : Count)
  /-- `00 nnn 100`, S2C: symbol values to characters (R105). -/
  | s2c (n : Count)
  /-- `00 nnn 101`, C2S: characters to symbol values (R106). -/
  | c2s (n : Count)
  deriving DecidableEq, Repr

/-- The count field of a command. -/
def Instr.count : Instr → Count
  | .enc n => n
  | .dec n => n
  | .encd n => n
  | .decd n => n
  | .s2c n => n
  | .c2s n => n

end Sys2Proof
end

