-- ==== Sys2Proof/WellFormed.lean ====
section
/-! DEFINITION. Which commands are legal (R75, R76): the count is within the opcode's range. RSV and the two reserved
opcodes have no term in `Instr`; the decoder rejects them. -/

namespace Sys2Proof

/-- The greatest legal N of an opcode (R75): 4 bytes for ENC and ENCD, 5 lanes for the others. -/
def Instr.maxCount : Instr → Nat
  | .enc _ => 4
  | .dec _ => 5
  | .encd _ => 4
  | .decd _ => 5
  | .s2c _ => 5
  | .c2s _ => 5

/-- A legal command (R75): N is in the range of its opcode. -/
abbrev Instr.WellFormed (i : Instr) : Prop := i.count.val ≤ i.maxCount

end Sys2Proof
end

