-- ==== Sys2Proof/Decode.lean ====
section
/-! DEFINITION. The command word: decoding, total over all 256 values (R78), with every rejection by name (R76), and the
encoder written from the same format (R70, R74). -/

namespace Sys2Proof

/-- Why a command word is illegal (R76), in the order `decode_cmd` of R78 tests. Every one completes with
ILLEGAL_COMMAND (R204). -/
inductive IllegalCmd where
  /-- `RSV != 00`. -/
  | reservedBits
  /-- `OP = 110` or `OP = 111`. -/
  | reservedOpcode
  /-- N above the opcode's range. -/
  | countOutOfRange
  deriving DecidableEq, Repr

/-- `cmd[7:6]` (R70). -/
def rsvField (cmd : Byte) : BitVec 2 := cmd.extractLsb' 6 2

/-- `cmd[5:3]`, as an unsigned number (R70, R72). -/
def nField (cmd : Byte) : Count := (cmd.extractLsb' 3 3).toFin

/-- `cmd[2:0]` (R70). -/
def opField (cmd : Byte) : BitVec 3 := cmd.extractLsb' 0 3

/-- The opcode map of R74, without the count check. -/
def opcodeMap (op : BitVec 3) (n : Count) : Option Instr :=
  match op with
  | 0b000#3 => some (.enc n)
  | 0b001#3 => some (.dec n)
  | 0b010#3 => some (.encd n)
  | 0b011#3 => some (.decd n)
  | 0b100#3 => some (.s2c n)
  | 0b101#3 => some (.c2s n)
  | _ => none

/-- `decode_cmd` (R78). -/
def decodeCmd (cmd : Byte) : Except IllegalCmd Instr :=
  if rsvField cmd ≠ 0b00#2 then .error .reservedBits
  else match opcodeMap (opField cmd) (nField cmd) with
    | none => .error .reservedOpcode
    | some i => if i.WellFormed then .ok i else .error .countOutOfRange

/-- The opcode of a command (R74). -/
def Instr.opcode : Instr → BitVec 3
  | .enc _ => 0b000#3
  | .dec _ => 0b001#3
  | .encd _ => 0b010#3
  | .decd _ => 0b011#3
  | .s2c _ => 0b100#3
  | .c2s _ => 0b101#3

/-- The command word `00 nnn ooo` (R70). -/
def encode (i : Instr) : Byte := 0b00#2 ++ (BitVec.ofFin i.count : BitVec 3) ++ i.opcode

/-- The command that the decoder reads from the word `w` of `nbits` bits. Every command is one byte (R71), so a number
with a bit above bit 7 is no command word. -/
def decodeTableWord (nbits w : Nat) : Option Instr :=
  if nbits ≤ 8 ∧ w < 256 then (decodeCmd (BitVec.ofNat 8 w)).toOption else none

end Sys2Proof
end

