-- ==== Sys2Proof/Config.lean ====
section
/-! DEFINITION. What is fixed when the block is built (R7, R9), the type of the one build-time parameter `ALPHABET` (R8),
and the free values of the power-on state (R234). The default table and the legality check of R102 are in
Machine/Alphabet.lean. -/

namespace Sys2Proof

/-- The parameter `ALPHABET` (R8): the characters in order of symbol value, entry `s` being the character of symbol `s`.
R8's array has 85 entries; R102's other conditions and that length are checked by `Machine.legalAlphabet`. -/
abbrev Alphabet := List Byte

namespace Config

/-- "a fixed 85-symbol alphabet" (R7). -/
abbrev radix : Nat := 85

/-- Bytes of a full group (R7). -/
abbrev groupBytes : Nat := 4

/-- Digits or characters of a full group (R7). -/
abbrev groupDigits : Nat := 5

/-- The pad digit of a partial decode group, the highest symbol value (R7, R142). -/
abbrev padDigit : Nat := 84

/-- The greatest group integer, 2^32 - 1 (R7, R141). -/
abbrev maxGroup : Nat := 0xFFFFFFFF

/-! R234: "Before the first reset edge after power-on, the values of all five registers are unspecified." Each is a free
value, one for every power-up (the argument numbers the power-ups of all units). Log entry 6. -/

/-- RSP_VALID at power-up `k`: unspecified (R234). -/
opaque powerOnRspValid : Nat → Bool

/-- STATUS at power-up `k`: unspecified (R234). -/
opaque powerOnStatus : Nat → BitVec 3

/-- COUNT at power-up `k`: unspecified (R234). -/
opaque powerOnCount : Nat → BitVec 3

/-- WORD at power-up `k`: unspecified (R234). -/
opaque powerOnWord : Nat → Word

/-- LANES at power-up `k`: unspecified (R234). -/
opaque powerOnLanes : Nat → Lanes

end Config

end Sys2Proof
end

