-- ==== Sys2Proof/Machine/Alphabet.lean ====
section
/-! DEFINITION. The alphabet_lut (40_alphabet_lut.md): the default table, the check of R102 that a configuration must pass,
and the two lookup functions. The table itself is in State (R28), since a model may take `ALPHABET` as an argument (R8). -/

namespace Sys2Proof.Machine

/-- The default table (R103): `ALPHABET[s] = 0x21 + s` for the symbol values 0 to 84. -/
def defaultAlphabet : Alphabet := (List.range 85).map fun s => BitVec.ofNat 8 (0x21 + s)

/-- A printable non-whitespace ASCII byte, "exactly 0x21 to 0x7E" (R102). -/
def printable (c : Byte) : Bool := Nat.ble 0x21 c.toNat && Nat.ble c.toNat 0x7E

/-- "pairwise distinct" (R102): no entry stands again after itself. `Laws.pairwiseDistinct_iff` says it is `List.Nodup`. -/
def pairwiseDistinct : Alphabet → Bool
  | [] => true
  | c :: a => a.all (fun x => !Nat.beq x.toNat c.toNat) && pairwiseDistinct a

/-- A legal `ALPHABET` (R102): 85 pairwise distinct entries, each printable. -/
def legalAlphabet (a : Alphabet) : Bool := a.length == 85 && a.all printable && pairwiseDistinct a

/-- `sym2char(s)` (R100): the byte `ALPHABET[s]`. "It is defined only for s <= 84; every caller checks the range first", so
the 0x00 that makes it total is never read from a legal table (log entry 8). -/
def sym2char (a : Alphabet) (s : Nat) : Byte := a.getD s 0

/-- R101's loop from symbol value `s` on: the first entry that holds `c`. -/
def char2symFrom (s : Nat) : Alphabet → Byte → Option Nat
  | [], _ => none
  | x :: a, c => if x = c then some s else char2symFrom (s + 1) a c

/-- `char2sym(c)` (R101): `some s` for the `s` with `ALPHABET[s] = c`, `none` for a byte out of alphabet. -/
def char2sym (a : Alphabet) (c : Byte) : Option Nat := char2symFrom 0 a c

/-- The maximum-value character `ALPHABET[84]` (R104). -/
def maxChar (a : Alphabet) : Byte := sym2char a Config.padDigit

end Sys2Proof.Machine
end

