-- ==== Sys2Proof/Machine/State.lean ====
section
/-! DEFINITION. The state of one `base85_codec` block: the five registers of R23 and the constant table of R28 ("the only
storage inside the block", R50), with the input ports of R21 as the host drives them. INVENTORY.md lists every field. -/

namespace Sys2Proof.Machine

/-- The status codes by name (R200); their 3-bit values are `Status.code`. -/
inductive Status where
  /-- Code 0. -/
  | ok
  /-- Code 1: a lane out of alphabet (DEC, C2S) or above 84 (DECD, S2C), R201. -/
  | invalidCharacter
  /-- Code 2: a decode group of exactly one character or digit, R202. -/
  | invalidLength
  /-- Code 3: a group value above 0xFFFFFFFF, R203. -/
  | groupOverflow
  /-- Code 4: `cmd` is none of the 34 legal commands, R204. -/
  | illegalCommand
  deriving DecidableEq, Repr

/-- The values on the input ports that are sampled at one rising edge (R21). `clk` is no field: the edge is the step. -/
structure Ports where
  /-- `rst`, active high. -/
  rst : Bool
  /-- `cmd_valid`. -/
  cmdValid : Bool
  /-- `cmd`, the command word (R70). -/
  cmd : Byte
  /-- `in_word`, the operand of ENC and ENCD. -/
  inWord : Word
  /-- `in_lanes`, the operand of DEC, DECD, S2C and C2S. -/
  inLanes : Lanes
  deriving DecidableEq, Repr

/-- What a command answers: "the values of STATUS, COUNT, WORD and LANES written by a command" (R12). -/
structure Response where
  /-- The value for STATUS. -/
  status : BitVec 3
  /-- The value for COUNT. -/
  count : BitVec 3
  /-- The value for WORD. -/
  word : Word
  /-- The value for LANES. -/
  lanes : Lanes
  deriving DecidableEq, Repr

/-- The output ports (R22). -/
structure OutPorts where
  /-- `rsp_valid`. -/
  rspValid : Bool
  /-- `out_status`. -/
  outStatus : BitVec 3
  /-- `out_count`. -/
  outCount : BitVec 3
  /-- `out_word`. -/
  outWord : Word
  /-- `out_lanes`. -/
  outLanes : Lanes
  deriving DecidableEq, Repr

/-- The state of the block and of what its host is going to drive. -/
structure State where
  /-- RSP_VALID (R23): a command was accepted at the last edge. -/
  rspValid : Bool
  /-- STATUS (R23, R26): 5 to 7 are never written. -/
  status : BitVec 3
  /-- COUNT (R23, R27): 6 and 7 are never written. -/
  count : BitVec 3
  /-- WORD (R23, R52). -/
  word : Word
  /-- LANES (R23, R53). -/
  lanes : Lanes
  /-- `ALPHABET` (R28), the read-only table: no step writes it. -/
  alphabet : Alphabet
  /-- The input ports as the host holds them at the coming edge (R21). -/
  ports : Ports
  /-- What the host drives at the edges after that, oldest first; idle when the list has ended (log entry 1). -/
  schedule : List Ports
  deriving DecidableEq, Repr

/-- The reasons for a machine stop with a fault. There is none: "The block has no traps" (60_exceptions.md), "Every accepted
command completes at the edge that accepts it" (R206), "The step is deterministic and total" (R231). -/
inductive Fault where
  deriving DecidableEq, Repr

/-- The reasons for giving no meaning. -/
inductive Refusal where
  /-- Raised by an arm of `exec` for an instruction without a meaning; no arm raises it. Safe. -/
  | notModelled (mnemonic : String)
  /-- Raised by every step and every meaning in a state whose `alphabet` breaks R102: "A model must refuse a configuration
  whose `ALPHABET` breaks this rule rather than give it a meaning." Safe: no block is built so (log entry 4). -/
  | illegalAlphabet
  deriving DecidableEq, Repr

/-- The ports at an edge without a command or a reset, R79's `IDLE`; the operands are don't-care (R31). -/
def Ports.idle : Ports := { rst := false, cmdValid := false, cmd := 0, inWord := 0, inLanes := 0 }

/-- The machine after a reset edge (R23, R232): all five registers 0. The table is R103's default (log entry 3); the host is
idle and has nothing planned (log entries 1 and 2). -/
def State.reset : State :=
  { rspValid := false, status := 0, count := 0, word := 0, lanes := 0
    alphabet := defaultAlphabet, ports := Ports.idle, schedule := [] }

/-- The machine after power-up `k`, before any edge (R234): the five registers hold unspecified values, and `ALPHABET` "holds
its contents from power-on" (R28). Log entry 6. -/
def State.powerOn (k : Nat) (a : Alphabet) (p : Ports) (later : List Ports) : State :=
  { rspValid := Config.powerOnRspValid k, status := Config.powerOnStatus k, count := Config.powerOnCount k
    word := Config.powerOnWord k, lanes := Config.powerOnLanes k, alphabet := a, ports := p, schedule := later }

end Sys2Proof.Machine
end

