-- ==== Sys2Proof/Machine/Flags.lean ====
section
/-! DEFINITION. STATUS, "the only flag-like state" (R26): the code values (R200) and the order in which causes are reported
(R205, R174). -/

namespace Sys2Proof.Machine

/-- The code of a status (R200). -/
def Status.code : Status → BitVec 3
  | .ok => 0
  | .invalidCharacter => 1
  | .invalidLength => 2
  | .groupOverflow => 3
  | .illegalCommand => 4

/-- The status that a value of STATUS stands for (R200); 5, 6 and 7 are never written. -/
def statusOfCode (c : BitVec 3) : Option Status :=
  match c with
  | 0#3 => some .ok
  | 1#3 => some .invalidCharacter
  | 2#3 => some .invalidLength
  | 3#3 => some .groupOverflow
  | 4#3 => some .illegalCommand
  | _ => none

/-- The status a host reads on `out_status`; the codes that no command writes count as an illegal command (log entry 10). -/
def readStatus (c : BitVec 3) : Status := (statusOfCode c).getD .illegalCommand

/-- The place of a status in the order of R205 (ILLEGAL_COMMAND, INVALID_CHARACTER, INVALID_LENGTH, GROUP_OVERFLOW), higher
first, with OK below all. R174 ranks a buffer's groups by the same order. -/
def Status.priority : Status → Nat
  | .ok => 0
  | .groupOverflow => 1
  | .invalidLength => 2
  | .invalidCharacter => 3
  | .illegalCommand => 4

/-- R173's `higher`: the one of two statuses that comes first in the order. -/
def Status.higher (a b : Status) : Status := if a.priority < b.priority then b else a

end Sys2Proof.Machine
end

