-- ==== Sys2Proof/Machine/Ops.lean ====
section
/-! DEFINITION. The named operations: the pseudocode primitives of R11, the one write of all five registers that completes a
command (R206), completing with an error (`raise`, the block's form of taking an exception), the reset and idle edges (R231),
and the order of outcomes. There is no return from an error (R208): the next command just overwrites STATUS. -/

namespace Sys2Proof.Machine

/-! ### Bytes and lanes (R11, R52, R53) -/

/-- `byte(W, j)` = `W[31 - 8*j : 24 - 8*j]`, j = 0 to 3 (R11). -/
def byte (w : Word) (j : Nat) : Byte := w.extractLsb' (24 - 8 * j) 8

/-- `lane(L, i)` = `L[39 - 8*i : 32 - 8*i]`, i = 0 to 4 (R11). -/
def lane (l : Lanes) (i : Nat) : Byte := l.extractLsb' (32 - 8 * i) 8

/-- The word of the bytes `b0, b1, b2, b3` of a group in buffer order (R52). -/
def wordOfBytes (b0 b1 b2 b3 : Byte) : Word := b0 ++ b1 ++ b2 ++ b3

/-- `lanes(a0, a1, a2, a3, a4)` (R11). -/
def lanesOfBytes (a0 a1 a2 a3 a4 : Byte) : Lanes := a0 ++ a1 ++ a2 ++ a3 ++ a4

/-- The lane value whose leading lanes are the given bytes and whose other lanes are 0x00: R105's `out <- 0` followed by the
writes of lanes 0, 1, … -/
def packLanes (bs : List Byte) : Lanes :=
  lanesOfBytes (bs.getD 0 0) (bs.getD 1 0) (bs.getD 2 0) (bs.getD 3 0) (bs.getD 4 0)

/-- Lanes 0 to `n - 1` of a lane value, in order. -/
def leadingLanes (l : Lanes) (n : Nat) : List Byte := (List.range n).map (lane l)

/-- Bytes 0 to `n - 1` of a word, in order. -/
def leadingBytes (w : Word) (n : Nat) : List Byte := (List.range n).map (byte w)

/-- The mask of `keepbytes`, as R11 lists it for n = 0 to 4. -/
def keepMask : Nat → Word
  | 0 => 0x00000000
  | 1 => 0xFF000000
  | 2 => 0xFFFF0000
  | 3 => 0xFFFFFF00
  | _ => 0xFFFFFFFF

/-- `keepbytes(W, n)`: `W` with bytes `j >= n` replaced by 0x00 (R11). -/
def keepbytes (w : Word) (n : Nat) : Word := w &&& keepMask n

/-! ### Completing a command (R206) -/

/-- `complete(status, count, word, lanes)` (R206): an error carries no data. -/
def complete (st : Status) (count : Nat) (word : Word) (lanes : Lanes) : Response :=
  if st = .ok then { status := st.code, count := BitVec.ofNat 3 count, word := word, lanes := lanes }
  else { status := st.code, count := 0, word := 0, lanes := 0 }

/-- `raise E` (R206): `complete(E, 0, 0, 0)`. -/
def raise (e : Status) : Response := complete e 0 0 0

/-- The one write of all five registers at the edge that accepts a command (R57, R206). "Nothing else changes." -/
def State.answer (s : State) (r : Response) : State :=
  { s with rspValid := true, status := r.status, count := r.count, word := r.word, lanes := r.lanes }

/-- A configuration whose `ALPHABET` breaks R102 is refused, on any edge; every other goes on. -/
def configured (s : State) (o : Host.Outcome State Fault Refusal) : Host.Outcome State Fault Refusal :=
  if legalAlphabet s.alphabet then o else .refused .illegalAlphabet

/-- A command with count `n` whose legal counts are 0 to `max`: above that it completes with ILLEGAL_COMMAND "before this
rule applies" and "reads no operand" (R76, R123, R204); otherwise it completes with the response `r`. -/
def accept (max : Nat) (n : Count) (s : State) (r : Response) : Host.Outcome State Fault Refusal :=
  configured s (.next (s.answer (if n.val ≤ max then r else raise .illegalCommand)))

/-- An accepted command word that decodes to no legal command (R76, R204). -/
def illegalCommand (s : State) : Host.Outcome State Fault Refusal :=
  configured s (.next (s.answer (raise .illegalCommand)))

/-! ### Edges without a command (R231) -/

/-- The registers at an edge with `rst = 1` (R231, R232). -/
def State.cleared (s : State) : State :=
  { s with rspValid := false, status := 0, count := 0, word := 0, lanes := 0 }

/-- The registers at an edge with `rst = 0` and `cmd_valid = 0`: "STATUS, COUNT, WORD, LANES hold" (R231). -/
def State.idled (s : State) : State := { s with rspValid := false }

/-! ### The host's side: ports and schedule -/

/-- After an edge the host goes on to the next sample it has planned, and idles when there is none (log entry 1). -/
def State.advance (s : State) : State :=
  { s with ports := s.schedule.headD Ports.idle, schedule := s.schedule.tail }

/-- The host drives `p` at the coming edge, and after it what it had planned. -/
def State.present (s : State) (p : Ports) : State := { s with ports := p, schedule := s.ports :: s.schedule }

/-- The output ports, "driven directly by the register of the same name" (R22). -/
def State.outputs (s : State) : OutPorts :=
  { rspValid := s.rspValid, outStatus := s.status, outCount := s.count, outWord := s.word, outLanes := s.lanes }

/-! ### Outcomes in sequence -/

/-- Goes on with `k` after a next state, and stops where the first part stops. -/
def andThen {σ τ : Type} (o : Host.Outcome σ Fault Refusal) (k : σ → Host.Outcome τ Fault Refusal) :
    Host.Outcome τ Fault Refusal :=
  match o with
  | .next s => k s
  | .fault r => .fault r
  | .refused r => .refused r

end Sys2Proof.Machine
end

