-- ==== Sys2Proof/Machine/Operands.lean ====
section
/-! DEFINITION. The three operand forms of R73: the group word, lanes that are characters, and lanes that are digits or
symbol values. Only the bytes and lanes that N selects are read (R31, R145). -/

namespace Sys2Proof.Machine

/-- The 32-bit group word of ENC and ENCD, "bytes 0 to N-1 used" (R73): `keepbytes(in_word, n)` (R122). -/
def groupWord (n : Count) (s : State) : Word := keepbytes s.ports.inWord n.val

/-- The symbol values of a list of characters (R106, R146): `none` when one is out of alphabet (R201). -/
def symbolsOfChars (a : Alphabet) : List Byte → Option (List Nat)
  | [] => some []
  | c :: cs =>
    match char2sym a c, symbolsOfChars a cs with
    | some d, some ds => some (d :: ds)
    | _, _ => none

/-- The values of a list of digit lanes (R105, R147): `none` when one is above 84 (R201). -/
def symbolsOfDigits : List Byte → Option (List Nat)
  | [] => some []
  | c :: cs =>
    match symbolsOfDigits cs with
    | some ds => if c.toNat ≤ Config.padDigit then some (c.toNat :: ds) else none
    | none => none

/-- Lanes 0 to N-1 of `in_lanes` as characters (DEC, C2S). -/
def charOperand (n : Count) (s : State) : Option (List Nat) :=
  symbolsOfChars s.alphabet (leadingLanes s.ports.inLanes n.val)

/-- Lanes 0 to N-1 of `in_lanes` as digits or symbol values (DECD, S2C). -/
def digitOperand (n : Count) (s : State) : Option (List Nat) :=
  symbolsOfDigits (leadingLanes s.ports.inLanes n.val)

/-- Symbol values as lanes of characters (S2C, ENC): `lane(out, i) <- sym2char(d[i])`. -/
def charLanes (a : Alphabet) (ds : List Nat) : Lanes := packLanes (ds.map (sym2char a))

/-- Symbol values as lanes of digits (C2S, ENCD): `lane(out, i) <- zext_8(d[i])`. -/
def digitLanes (ds : List Nat) : Lanes := packLanes (ds.map (BitVec.ofNat 8))

end Sys2Proof.Machine
end

