-- ==== Sys2Proof/Machine/AlphabetLut.lean ====
section
/-! DEFINITION. The commands of `alphabet_lut` (40_alphabet_lut.md): the meanings of S2C and C2S. -/

namespace Sys2Proof.Machine

/-- The response of S2C (R105). -/
def s2cResponse (n : Count) (s : State) : Response :=
  match digitOperand n s with
  | none => raise .invalidCharacter
  | some ds => complete .ok n.val 0 (charLanes s.alphabet ds)

/-- The response of C2S (R106). -/
def c2sResponse (n : Count) (s : State) : Response :=
  match charOperand n s with
  | none => raise .invalidCharacter
  | some ds => complete .ok n.val 0 (digitLanes ds)

/-- S2C (R105). -/
def execS2c (n : Count) (s : State) : Host.Outcome State Fault Refusal := accept 5 n s (s2cResponse n s)

/-- C2S (R106). -/
def execC2s (n : Count) (s : State) : Host.Outcome State Fault Refusal := accept 5 n s (c2sResponse n s)

end Sys2Proof.Machine
end

