-- ==== Sys2Proof/Machine/Decoder.lean ====
section
/-! DEFINITION. `base85_decoder` (42_decoder.md): `dec5`, the padding of partial groups, and the meanings of DEC and DECD. -/

namespace Sys2Proof.Machine

/-- `dec5(d)` (R140): `d[0]*85^4 + d[1]*85^3 + d[2]*85^2 + d[3]*85 + d[4]`, an unbounded natural. -/
def dec5 (ds : List Nat) : Nat :=
  ds.getD 0 0 * 85 ^ 4 + ds.getD 1 0 * 85 ^ 3 + ds.getD 2 0 * 85 ^ 2 + ds.getD 3 0 * 85 + ds.getD 4 0

/-- Partial-group padding (R142): digits `k` to 4 are set to 84. -/
def padGroup (ds : List Nat) : List Nat := ds ++ List.replicate (Config.groupDigits - ds.length) Config.padDigit

/-- The response to a group of `k` validated digits, shared by DEC and DECD (R146, R147): the empty group, then the length
(R144), then the overflow test on the padded value (R141, R142), then the emitted bytes (R143). -/
def decodeGroup (k : Nat) (ds : List Nat) : Response :=
  if k = 0 then complete .ok 0 0 0
  else if k = 1 then raise .invalidLength
  else if Config.maxGroup < dec5 (padGroup ds) then raise .groupOverflow
  else complete .ok (k - 1) (keepbytes (BitVec.ofNat 32 (dec5 (padGroup ds))) (k - 1)) 0

/-- The response of DEC (R146). -/
def decResponse (k : Count) (s : State) : Response :=
  match charOperand k s with
  | none => raise .invalidCharacter
  | some ds => decodeGroup k.val ds

/-- The response of DECD (R147). -/
def decdResponse (k : Count) (s : State) : Response :=
  match digitOperand k s with
  | none => raise .invalidCharacter
  | some ds => decodeGroup k.val ds

/-- DEC (R146). -/
def execDec (k : Count) (s : State) : Host.Outcome State Fault Refusal := accept 5 k s (decResponse k s)

/-- DECD (R147). -/
def execDecd (k : Count) (s : State) : Host.Outcome State Fault Refusal := accept 5 k s (decdResponse k s)

end Sys2Proof.Machine
end

