-- ==== Sys2Proof/Machine/Encoder.lean ====
section
/-! DEFINITION. `base85_encoder` (41_encoder.md): `enc5` and the meanings of ENC and ENCD. -/

namespace Sys2Proof.Machine

/-- Digit `i` of a group integer (R120): `(v / 85^(4-i)) mod 85`. -/
def encDigit (v i : Nat) : Nat := v / Config.radix ^ (4 - i) % Config.radix

/-- `enc5(v)` (R120): the five digits, most significant first. -/
def enc5 (v : Nat) : List Nat := (List.range Config.groupDigits).map (encDigit v)

/-- How many digits a group of `n` bytes gives: `n + 1`, none for the empty group (R122, R126). -/
def encodedLength (n : Nat) : Nat := if n = 0 then 0 else n + 1

/-- The digits that ENC and ENCD emit: those of the zero-padded group word, "digits 0 to n only" (R122). -/
def encodeDigits (n : Count) (s : State) : List Nat := (enc5 (groupWord n s).toNat).take (encodedLength n.val)

/-- The response of ENC (R123). -/
def encResponse (n : Count) (s : State) : Response :=
  complete .ok (encodedLength n.val) 0 (charLanes s.alphabet (encodeDigits n s))

/-- The response of ENCD (R124). -/
def encdResponse (n : Count) (s : State) : Response :=
  complete .ok (encodedLength n.val) 0 (digitLanes (encodeDigits n s))

/-- ENC (R123). -/
def execEnc (n : Count) (s : State) : Host.Outcome State Fault Refusal := accept 4 n s (encResponse n s)

/-- ENCD (R124). -/
def execEncd (n : Count) (s : State) : Host.Outcome State Fault Refusal := accept 4 n s (encdResponse n s)

end Sys2Proof.Machine
end

