-- ==== Sys2Proof/Machine/Dispatch.lean ====
section
/-! DEFINITION. The meaning of every command (R74, R231): an accepted command, with its operands on the input ports. -/

namespace Sys2Proof.Machine

def exec (i : Instr) (s : State) : Host.Outcome State Fault Refusal :=
  match i with
  | .enc n => Sys2Proof.Machine.execEnc n s
  | .dec n => Sys2Proof.Machine.execDec n s
  | .encd n => Sys2Proof.Machine.execEncd n s
  | .decd n => Sys2Proof.Machine.execDecd n s
  | .s2c n => Sys2Proof.Machine.execS2c n s
  | .c2s n => Sys2Proof.Machine.execC2s n s

end Sys2Proof.Machine
end

