-- ==== Sys2Proof/Machine/Edge.lean ====
section
/-! DEFINITION. What the block does at one rising edge (R231), before the host moves on to its next port values. -/

namespace Sys2Proof.Machine

/-- An edge with `rst = 0` and `cmd_valid = 1`: `case decode_cmd(cmd) of` (R231). -/
def acceptEdge (s : State) : Host.Outcome State Fault Refusal :=
  match decodeCmd s.ports.cmd with
  | .ok i => exec i s
  | .error _ => illegalCommand s

/-- `step(rst, cmd_valid, cmd, in_word, in_lanes)` (R231) for the five registers; reset wins over a command (R232). -/
def clockEdge (s : State) : Host.Outcome State Fault Refusal :=
  if s.ports.rst then configured s (.next s.cleared)
  else if s.ports.cmdValid then acceptEdge s
  else configured s (.next s.idled)

/-- The ports with the command word `w` presented (`cmd_valid = 1`, `rst = 0`) and the operand ports as they are. -/
def Ports.withCommand (p : Ports) (w : Byte) : Ports := { p with rst := false, cmdValid := true, cmd := w }

/-- The ports that present the command `i` with its operands. -/
def Ports.command (i : Instr) (w : Word) (l : Lanes) : Ports :=
  { rst := false, cmdValid := true, cmd := encode i, inWord := w, inLanes := l }

end Sys2Proof.Machine
end

