-- ==== Sys2Proof/Machine/Step.lean ====
section
/-! DEFINITION. One step is one rising edge of `clk` (R230, R231): the block samples its ports and writes its registers, and the
host moves on to the port values of the next edge. -/

namespace Sys2Proof.Machine

/-- One rising edge. -/
def step (s : State) : Host.Outcome State Fault Refusal := andThen (clockEdge s) fun t => .next t.advance

/-- The state in which the host presents the command word `w` at the coming edge. There is no fetch (R25): a command runs
because it is on `cmd` with `cmd_valid = 1` and `rst = 0` (R70, R231). Every command is one byte (R71), so it is the low
`nbits` bits of `w`. Log entry 7. -/
def State.withFetchWord (s : State) (nbits w : Nat) : State :=
  { s with ports := s.ports.withCommand (BitVec.ofNat 8 (w % 2 ^ nbits)) }

end Sys2Proof.Machine
end

