-- ==== Sys2Proof/Machine/HostBuffer.lean ====
section
/-! DEFINITION. The host procedures ENCODE_BUFFER and DECODE_BUFFER (48_host_buffer_procedures.md): sequences of commands that
the host issues. "These are not block behaviour" (there): the block sees one group per command. -/

namespace Sys2Proof.Machine

/-- What DECODE_BUFFER returns (R173): the bytes, or one failure and no bytes (R175). -/
inductive BufferResult where
  /-- `return out`. -/
  | bytes (out : List Byte)
  /-- `return FAILURE(worst)`. -/
  | failure (worst : Status)
  deriving DecidableEq, Repr

/-- The host issues one command "with `cmd_valid = 1` at one edge" (R170), ahead of what it had planned; it reads the
response in the state this gives, before the next edge (R237). -/
def issue (i : Instr) (w : Word) (l : Lanes) (s : State) : Host.Outcome State Fault Refusal :=
  step (s.present (Ports.command i w l))

/-- The groups of a raw buffer: every 4th byte, the last group short when the length is no multiple of 4 (R56, R171). -/
def rawGroups : List Byte → List (List Byte)
  | b0 :: b1 :: b2 :: b3 :: rest => [b0, b1, b2, b3] :: rawGroups rest
  | [] => []
  | last => [last]

/-- The groups of an encoded buffer: every 5th character (R56, R173). -/
def encodedGroups : List Byte → List (List Byte)
  | c0 :: c1 :: c2 :: c3 :: c4 :: rest => [c0, c1, c2, c3, c4] :: encodedGroups rest
  | [] => []
  | last => [last]

/-- The word a host presents for a raw group: "byte(w, j) = b[4*g + j] for j < r, any value for j >= r" (R171); the bytes of
`fill` are those values. -/
def groupToWord (fill : Word) (g : List Byte) : Word :=
  wordOfBytes (g.getD 0 (byte fill 0)) (g.getD 1 (byte fill 1)) (g.getD 2 (byte fill 2)) (g.getD 3 (byte fill 3))

/-- "append lane(LANES, i) for i in 0 .. COUNT - 1" (R171), read on the output ports (R22). -/
def OutPorts.characters (o : OutPorts) : List Byte := leadingLanes o.outLanes o.outCount.toNat

/-- "append byte(WORD, j) for j in 0 .. COUNT - 1" (R173), read on the output ports (R22). -/
def OutPorts.bytes (o : OutPorts) : List Byte := leadingBytes o.outWord o.outCount.toNat

/-- The loop of ENCODE_BUFFER (R171) over the groups, `out` being what it has so far. -/
def encodeGroups (fill : Word) : List (List Byte) → List Byte → State → Host.Outcome (State × List Byte) Fault Refusal
  | [], out, s => .next (s, out)
  | g :: gs, out, s =>
    andThen (issue (.enc (Fin.ofNat 8 g.length)) (groupToWord fill g) 0 s) fun t =>
      encodeGroups fill gs (out ++ t.outputs.characters) t

/-- ENCODE_BUFFER (R171) of `b`, from the block's state `s`: the state after the last command, and the characters. -/
def encodeBuffer (fill : Word) (b : List Byte) (s : State) : Host.Outcome (State × List Byte) Fault Refusal :=
  encodeGroups fill (rawGroups b) [] s

/-- The loop of DECODE_BUFFER (R173) over the groups, with `worst` and `out` so far. -/
def decodeGroups : List (List Byte) → Status → List Byte → State →
    Host.Outcome (State × Status × List Byte) Fault Refusal
  | [], worst, out, s => .next (s, worst, out)
  | g :: gs, worst, out, s =>
    andThen (issue (.dec (Fin.ofNat 8 g.length)) 0 (packLanes g) s) fun t =>
      if readStatus t.outputs.outStatus ≠ .ok then
        decodeGroups gs (worst.higher (readStatus t.outputs.outStatus)) out t
      else decodeGroups gs worst (out ++ t.outputs.bytes) t

/-- DECODE_BUFFER (R173) of `t`, from the block's state `s`. -/
def decodeBuffer (t : List Byte) (s : State) : Host.Outcome (State × BufferResult) Fault Refusal :=
  andThen (decodeGroups (encodedGroups t) .ok [] s) fun r =>
    .next (r.1, if r.2.1 ≠ .ok then .failure r.2.1 else .bytes r.2.2)

end Sys2Proof.Machine
end

