-- ==== Sys2Proof/Machine/Instances.lean ====
section
/-! DEFINITION. Several blocks in one system (R212): "They share no state: each has its own registers, and the one thing they have in
common, `ALPHABET`, is a constant". The table stands once in the system, so no two of its blocks can have different ones. The spec
relates no clocks of two blocks, so one edge of one block is one step of the system (log entry 12). -/

namespace Sys2Proof.Machine

/-- What one block of a system has of its own: its five registers (R23), and its host's ports and plan (R21, log entry 1). It is
`State` without the table. -/
structure Block where
  /-- RSP_VALID. -/
  rspValid : Bool
  /-- STATUS. -/
  status : BitVec 3
  /-- COUNT. -/
  count : BitVec 3
  /-- WORD. -/
  word : Word
  /-- LANES. -/
  lanes : Lanes
  /-- The input ports at the block's coming edge. -/
  ports : Ports
  /-- What the block's host drives at the edges after that. -/
  schedule : List Ports
  deriving DecidableEq, Repr

/-- A system of blocks, any number of them (R212). A block's place in the list is the model's: "There is no identifier". -/
structure System where
  /-- `ALPHABET`, the one thing the blocks have in common. -/
  alphabet : Alphabet
  /-- The blocks. -/
  blocks : List Block
  deriving DecidableEq, Repr

/-- A block with the table `a`, as a machine of its own. -/
def Block.toState (a : Alphabet) (b : Block) : State :=
  { rspValid := b.rspValid, status := b.status, count := b.count, word := b.word, lanes := b.lanes
    alphabet := a, ports := b.ports, schedule := b.schedule }

/-- What a machine has beside the table. -/
def State.toBlock (s : State) : Block :=
  { rspValid := s.rspValid, status := s.status, count := s.count, word := s.word, lanes := s.lanes
    ports := s.ports, schedule := s.schedule }

/-- Block `k` of a system as a machine of its own, with the system's table. -/
def System.unit (y : System) (k : Nat) : Option State := (y.blocks[k]?).map (Block.toState y.alphabet)

/-- One rising edge of the clock of block `k`; a system without a block `k` stays as it is. -/
def stepUnit (k : Nat) (y : System) : Host.Outcome System Fault Refusal :=
  match y.unit k with
  | none => .next y
  | some s => andThen (step s) fun t => .next { y with blocks := y.blocks.set k t.toBlock }

end Sys2Proof.Machine
end

