-- ==== Sys2Proof/Machine/Program.lean ====
section
/-! DEFINITION. The notation of command programs, "one cycle per line" (R79), and how a program is put before the block. -/

namespace Sys2Proof.Machine

/-- One line of a program (R79). `IDLE` and `RESET` are "the only pseudo-operations", with no `cmd` encoding. -/
inductive Line where
  /-- `ENC.n 0xHHHHHHHH`, `ENCD.n 0xHHHHHHHH`. -/
  | word (i : Instr) (w : Word)
  /-- `DEC.n "ccccc"`, `C2S.n "ccccc"`, `DECD.n [d0,d1,...]`, `S2C.n [s0,...]`: the lane values in order. -/
  | values (i : Instr) (vs : List Byte)
  /-- `DEC.n 0xHHHHHHHHHH`, `C2S.n 0xHHHHHHHHHH`: `in_lanes` given whole. -/
  | whole (i : Instr) (l : Lanes)
  /-- `CMD 0xHH`: the raw command byte, operands 0. -/
  | cmd (c : Byte)
  /-- `IDLE`: one cycle with `cmd_valid = 0` and `rst = 0`. -/
  | idle
  /-- `RESET`: one cycle with `rst = 1`. -/
  | reset
  deriving DecidableEq, Repr

/-- The port values of a line (R79). A lane the line gives no value is 0x00, and so is an operand port it does not name
(log entry 14). -/
def Line.ports : Line → Ports
  | .word i w => Ports.command i w 0
  | .values i vs => Ports.command i 0 (packLanes vs)
  | .whole i l => Ports.command i 0 l
  | .cmd c => Ports.idle.withCommand c
  | .idle => Ports.idle
  | .reset => { Ports.idle with rst := true }

/-- The host is going to present the lines of a program, one at each edge, and then idles. -/
def State.loadProgram (lines : List Line) (s : State) : State :=
  { s with ports := (lines.map Line.ports).headD Ports.idle, schedule := (lines.map Line.ports).tail }

end Sys2Proof.Machine
end

