-- ==== Sys2Proof/Safety.lean ====
section
/-! DEFINITION. What counts as a sound state and a safe run, in the terms the statements use. -/

namespace Sys2Proof.Machine

/-- Lanes at index `n` and above are 0x00 (D9: "Lanes at index >= COUNT ... read 0x00"). -/
abbrev TrailingLanesZero (l : Lanes) (n : Nat) : Prop := ∀ i < 5, n ≤ i → lane l i = 0

/-- Bytes at index `n` and above are 0x00 (D9, R143). -/
abbrev TrailingBytesZero (w : Word) (n : Nat) : Prop := ∀ j < 4, n ≤ j → byte w j = 0

/-- A sound state: what R23, R206 and R102 say holds in every state after a reset edge or a command. A power-on state (R234)
need not be sound. -/
structure Inv (s : State) : Prop where
  /-- The configuration is legal (R102). -/
  alphabet_legal : legalAlphabet s.alphabet = true
  /-- STATUS is "0 to 4; 5 to 7 are never written" (R23). -/
  status_le : s.status.toNat ≤ 4
  /-- COUNT is "0 to 5; 6 and 7 are never written" (R23). -/
  count_le : s.count.toNat ≤ 5
  /-- An error carries no data (R206). -/
  error_empty : s.status ≠ Status.ok.code → s.count = 0 ∧ s.word = 0 ∧ s.lanes = 0
  /-- A response is in LANES or in WORD, the valid lanes or bytes leading and the others 0 (R27, R54, R73). -/
  one_result : (s.word = 0 ∧ TrailingLanesZero s.lanes s.count.toNat) ∨
    (s.lanes = 0 ∧ s.count.toNat ≤ 4 ∧ TrailingBytesZero s.word s.count.toNat)

/-- `k` rising edges in a row. -/
def edges : Nat → State → Host.Outcome State Fault Refusal
  | 0, s => .next s
  | k + 1, s => andThen (step s) (edges k)

/-- A run of `k` edges from `s` ends in a next state: it meets no fault and no refusal. -/
def SafeRun (s : State) : Nat → Prop
  | 0 => True
  | k + 1 => ∃ t, step s = .next t ∧ SafeRun t k

end Sys2Proof.Machine
end

