-- ==== Sys2Proof/Certificates/Slice0/Obligations.lean ====
section
/-! DEFINITION. The statements about the model, from the numbered rules of spec/. Unless a statement says otherwise it is made
for every legal `ALPHABET` (R102), every state and every operand. -/

namespace Sys2Proof.Machine

/-- The outcome `o` is the next state that is `s` with the five registers written as given and NOTHING else changed: not
`ALPHABET`, not the ports, not what the host has planned. -/
def Answers (o : Host.Outcome State Fault Refusal) (s : State) (status count : Nat) (word : Word) (lanes : Lanes) : Prop :=
  o = .next { s with
    rspValid := true, status := BitVec.ofNat 3 status, count := BitVec.ofNat 3 count, word := word, lanes := lanes }

/-- The step from `s` answers a next state whose registers are as given, with the table as it was. Nothing is said of the host. -/
def Edge (s : State) (rspValid : Bool) (status count : BitVec 3) (word : Word) (lanes : Lanes) : Prop :=
  ∃ t, step s = .next t ∧ t.outputs = ⟨rspValid, status, count, word, lanes⟩ ∧ t.alphabet = s.alphabet

/-- `s` after the host has moved on by one edge: the next planned sample is on the ports, or idle when none is planned (the
model's way to hold the host's inputs, log entry 1). -/
def HostMovesOn (s : State) : State :=
  { s with ports := s.schedule.headD Ports.idle, schedule := s.schedule.tail }

/-- The state `s` with `l` on `in_lanes`. -/
def WithLanes (s : State) (l : Lanes) : State := { s with ports := { s.ports with inLanes := l } }

/-- The state `s` with `w` on `in_word`. -/
def WithWord (s : State) (w : Word) : State := { s with ports := { s.ports with inWord := w } }

/-- The big-endian value of bytes 0 to `n - 1` of `w`, the missing bytes zero (R52, R122). -/
def ZeroPadded (n : Nat) (w : Word) : Nat := ((List.range n).map fun j => (byte w j).toNat * 256 ^ (3 - j)).sum

/-- `d[0]*85^4 + d[1]*85^3 + d[2]*85^2 + d[3]*85 + d[4]` (R140). -/
def GroupValue (d : Nat → Nat) : Nat := d 0 * 85 ^ 4 + d 1 * 85 ^ 3 + d 2 * 85 ^ 2 + d 3 * 85 + d 4

/-- What a decode command of `k` digits `d` (84 from place `k` on) answers when 2 ≤ k ≤ 5 (R141, R143). -/
def DecodesGroup (o : Host.Outcome State Fault Refusal) (s : State) (k : Nat) (d : Nat → Nat) : Prop :=
  (0xFFFFFFFF < GroupValue d → Answers o s 3 0 0 0) ∧
  (GroupValue d ≤ 0xFFFFFFFF → ∃ w, Answers o s 0 (k - 1) w 0 ∧
    ∀ j < 4, (byte w j).toNat = if j < k - 1 then GroupValue d / 256 ^ (3 - j) % 256 else 0)

/-- The operands of `i` that its count selects agree in `p` and `q` (R31): the leading bytes or the leading lanes. -/
def SameOperand (i : Instr) (p q : Ports) : Prop :=
  match i with
  | .enc n | .encd n => ∀ j < 4, j < n.val → byte p.inWord j = byte q.inWord j
  | .dec n | .decd n | .s2c n | .c2s n => ∀ j < 5, j < n.val → lane p.inLanes j = lane q.inLanes j

/-- COUNT after OK (R27). -/
def CountWhenOk : Instr → Nat
  | .enc n | .encd n => if n.val = 0 then 0 else n.val + 1
  | .dec n | .decd n => n.val - 1
  | .s2c n | .c2s n => n.val

/-- The samples of the next `k` edges: the ports, then the schedule, then idle (how the model holds the host's inputs, log
entry 1). -/
def ComingSamples (s : State) (k : Nat) : List Ports := (List.range k).map fun j => (s.ports :: s.schedule).getD j Ports.idle

/-- The cause of a status code applies to the command `i` in `s` (R201 to R204), whether or not another cause is reported first:
a count out of range; a lane that N selects out of alphabet or above 84; a decode group of one; a group of 2 to 5 whose digits,
84 from place N on, have a value above 0xFFFFFFFF. -/
def CauseApplies (i : Instr) (s : State) : Status → Prop
  | .ok => False
  | .illegalCommand => ¬ i.WellFormed
  | .invalidCharacter =>
    match i with
    | .enc _ | .encd _ => False
    | .dec n | .c2s n => ∃ j < 5, j < n.val ∧ lane s.ports.inLanes j ∉ s.alphabet
    | .decd n | .s2c n => ∃ j < 5, j < n.val ∧ 84 < (lane s.ports.inLanes j).toNat
  | .invalidLength => i = .dec 1 ∨ i = .decd 1
  | .groupOverflow =>
    match i with
    | .dec n => 2 ≤ n.val ∧ n.val ≤ 5 ∧ ∃ d : Nat → Nat, (∀ j < n.val, s.alphabet[d j]? = some (lane s.ports.inLanes j)) ∧
        (∀ j < 5, n.val ≤ j → d j = 84) ∧ 0xFFFFFFFF < GroupValue d
    | .decd n => 2 ≤ n.val ∧ n.val ≤ 5 ∧
        0xFFFFFFFF < GroupValue fun j => if j < n.val then (lane s.ports.inLanes j).toNat else 84
    | .enc _ | .encd _ | .s2c _ | .c2s _ => False

/-- The characters of `g` stand for digits whose padded value is above 0xFFFFFFFF (R141, R142). -/
def GroupOverflows (a : Alphabet) (g : List Byte) : Prop :=
  ∃ ds : List Nat, List.Forall₂ (fun c d => a[d]? = some c) g ds ∧ 0xFFFFFFFF < GroupValue fun i => ds.getD i 84

/-- The status that the block answers for the encoded group `g`, from the state `s` (R173). -/
def GroupStatus (s : State) (g : List Byte) (e : Status) : Prop :=
  ∃ t, issue (.dec (Fin.ofNat 8 g.length)) 0 (packLanes g) s = .next t ∧ t.status = e.code

end Sys2Proof.Machine

open Sys2Proof Sys2Proof.Machine

/-! ### The command word -/

/-- R78: decoding is total over all 256 values: the legal values of each command, in the order of N, the 34 of them in all, and
every other value rejected. -/
def Obligations.DecodeFollowsTheListOfLegalValues : Prop :=
  (∀ (cmd : Byte) (n : Count),
    (decodeCmd cmd = .ok (.enc n) ↔ [0x00, 0x08, 0x10, 0x18, 0x20][n.val]? = some cmd.toNat) ∧
    (decodeCmd cmd = .ok (.dec n) ↔ [0x01, 0x09, 0x11, 0x19, 0x21, 0x29][n.val]? = some cmd.toNat) ∧
    (decodeCmd cmd = .ok (.encd n) ↔ [0x02, 0x0A, 0x12, 0x1A, 0x22][n.val]? = some cmd.toNat) ∧
    (decodeCmd cmd = .ok (.decd n) ↔ [0x03, 0x0B, 0x13, 0x1B, 0x23, 0x2B][n.val]? = some cmd.toNat) ∧
    (decodeCmd cmd = .ok (.s2c n) ↔ [0x04, 0x0C, 0x14, 0x1C, 0x24, 0x2C][n.val]? = some cmd.toNat) ∧
    (decodeCmd cmd = .ok (.c2s n) ↔ [0x05, 0x0D, 0x15, 0x1D, 0x25, 0x2D][n.val]? = some cmd.toNat)) ∧
  ((List.range 256).filter fun c => (decodeCmd (BitVec.ofNat 8 c)).toOption.isSome).length = 34

/-- R70, R75, R78: the encoder and the decoder agree: a legal command's word decodes to it, a word that decodes is the word of
the legal command it decodes to, and a count out of range is rejected by its own name. -/
def Obligations.DecodeAndEncodeAgree : Prop :=
  (∀ i : Instr, i.WellFormed → decodeCmd (encode i) = .ok i) ∧
  (∀ (cmd : Byte) (i : Instr), decodeCmd cmd = .ok i → i.WellFormed ∧ encode i = cmd) ∧
  (∀ i : Instr, ¬ i.WellFormed → decodeCmd (encode i) = .error .countOutOfRange)

/-- R76, R204: which command words are illegal, in R76's four cases, and that every one of them, accepted at an edge, takes its
edge and completes with ILLEGAL_COMMAND, whatever the operand ports hold. -/
def Obligations.IllegalCommandsCompleteWithIllegalCommand : Prop :=
  ∀ s : State, legalAlphabet s.alphabet = true → s.ports.rst = false → s.ports.cmdValid = true →
    let cmd := s.ports.cmd.toNat
    let n := cmd / 8 % 8
    let op := cmd % 8
    ((cmd / 64 ≠ 0 ∨ op = 6 ∨ op = 7 ∨ ((op = 0 ∨ op = 2) ∧ 4 < n) ∨ ((op = 1 ∨ op = 3 ∨ op = 4 ∨ op = 5) ∧ 5 < n)) →
      Edge s true 4 0 0 0) ∧
    (¬ (cmd / 64 ≠ 0 ∨ op = 6 ∨ op = 7 ∨ ((op = 0 ∨ op = 2) ∧ 4 < n) ∨
        ((op = 1 ∨ op = 3 ∨ op = 4 ∨ op = 5) ∧ 5 < n)) →
      ∃ t, step s = .next t ∧ t.status ≠ 4)

/-! ### The edge -/

/-- R231: a step at an edge that accepts a word that decodes to `i` is `exec i`, after which the host moves on to its next port
values (the model's convention, log entry 1); and the state that `withFetchWord` makes runs exactly the command it is given
(log entry 7). -/
def Obligations.StepRunsTheDecodedCommand : Prop :=
  (∀ (s : State) (i : Instr), s.ports.rst = false → s.ports.cmdValid = true → decodeCmd s.ports.cmd = .ok i →
    step s = andThen (exec i s) fun t => .next (HostMovesOn t)) ∧
  (∀ (s : State) (i : Instr) (w : Nat), decodeTableWord 8 w = some i →
    step (s.withFetchWord 8 w) = andThen (exec i (s.withFetchWord 8 w)) fun t => .next (HostMovesOn t))

/-- R231: what one edge does to the registers, case by case, and that it is total. -/
def Obligations.EdgeFollowsTheStepRule : Prop :=
  ∀ s : State, legalAlphabet s.alphabet = true →
    (s.ports.rst = true → Edge s false 0 0 0 0) ∧
    (s.ports.rst = false → s.ports.cmdValid = true → ∀ i, decodeCmd s.ports.cmd = .ok i →
      ∃ t, exec i s = .next t ∧ Edge s t.rspValid t.status t.count t.word t.lanes) ∧
    (s.ports.rst = false → s.ports.cmdValid = true → ∀ e, decodeCmd s.ports.cmd = .error e → Edge s true 4 0 0 0) ∧
    (s.ports.rst = false → s.ports.cmdValid = false → Edge s false s.status s.count s.word s.lanes) ∧
    ∃ t, step s = .next t

/-- R231: "The step is deterministic and total": a block with a legal table runs on for any number of edges, whatever its
registers hold and its host drives. -/
def Obligations.LegalConfigurationNeverStops : Prop :=
  ∀ (k : Nat) (s : State), legalAlphabet s.alphabet = true → SafeRun s k

/-- R232: after one or more edges with `rst = 1` in a row, with or without commands presented at them, the registers hold the
reset values and the table is untouched. -/
def Obligations.ResetEdgesClearAllRegisters : Prop :=
  ∀ (k : Nat) (s : State), legalAlphabet s.alphabet = true → (∀ p ∈ ComingSamples s (k + 1), p.rst = true) →
    ∃ t, edges (k + 1) s = .next t ∧ t.rspValid = false ∧ t.status = 0 ∧ t.count = 0 ∧ t.word = 0 ∧ t.lanes = 0 ∧
      t.alphabet = s.alphabet

/-- R231, R237: edges without a command or a reset hold STATUS, COUNT, WORD and LANES and show RSP_VALID = 0. That edges after
the end of the schedule are such edges is the model's choice, log entry 1. -/
def Obligations.IdleEdgesHoldTheResponse : Prop :=
  ∀ (k : Nat) (s : State), legalAlphabet s.alphabet = true →
    (∀ p ∈ ComingSamples s (k + 1), p.rst = false ∧ p.cmdValid = false) →
    ∃ t, edges (k + 1) s = .next t ∧ t.rspValid = false ∧ t.status = s.status ∧ t.count = s.count ∧ t.word = s.word ∧
      t.lanes = s.lanes

/-- R28, R233: no edge writes `ALPHABET`, whatever it does. -/
def Obligations.NoEdgeWritesTheAlphabet : Prop :=
  ∀ (k : Nat) (s t : State), edges k s = .next t → t.alphabet = s.alphabet

/-- R102: a state whose table breaks the rule is refused, and no other state is. R102 does not say by what: that every step and
every `exec` is refused, reset and idle edges, ENCD and DECD included, is the model's reading (log entry 4), and so is that `exec`
of a term with a count out of range answers a next state (log entry 5). -/
def Obligations.IllegalAlphabetIsRefused : Prop :=
  ∀ s : State,
    let legal := s.alphabet.length = 85 ∧ (∀ c ∈ s.alphabet, 0x21 ≤ c.toNat ∧ c.toNat ≤ 0x7E) ∧ s.alphabet.Nodup
    (¬ legal → step s = .refused .illegalAlphabet ∧ ∀ i, exec i s = .refused .illegalAlphabet) ∧
    (legal → (∃ t, step s = .next t) ∧ ∀ i, ∃ t, exec i s = .next t)

/-! ### Reset, power-on and the invariant -/

/-- R23, R232: the reset values of the five registers. That the table is the default one (R103) is the model's choice, log
entry 3, and that the host is idle is too, log entry 2. -/
def Obligations.ResetStateHoldsTheResetValues : Prop :=
  State.reset.rspValid = false ∧ State.reset.status = 0 ∧ State.reset.count = 0 ∧ State.reset.word = 0 ∧
    State.reset.lanes = 0 ∧ State.reset.alphabet = defaultAlphabet ∧ State.reset.ports.rst = false ∧
    State.reset.ports.cmdValid = false ∧ State.reset.schedule = []

/-- The state after reset is sound. -/
def Obligations.ResetStateIsSound : Prop := Inv State.reset

/-- R23, R27, R102, R206: every edge keeps the invariant: legal table, codes and counts in range, an error without data, one
result with its valid part leading. -/
def Obligations.EveryEdgeKeepsTheInvariant : Prop :=
  ∀ s t : State, Inv s → step s = .next t → Inv t

/-- R234: from the unspecified power-on state, an edge with a command or a reset defines all five registers: the next state is
sound, and it is the one any other register contents would have given. -/
def Obligations.FirstEdgeDefinesAllRegisters : Prop :=
  ∀ (k : Nat) (a : Alphabet) (p : Ports) (later : List Ports), legalAlphabet a = true → (p.rst = true ∨ p.cmdValid = true) →
    ∃ t, step (State.powerOn k a p later) = .next t ∧ Inv t ∧
      ∀ s : State, s.alphabet = a → s.ports = p → s.schedule = later → step s = .next t

/-! ### What every command does -/

/-- R206: every command completes with one write of all five registers: RSP_VALID = 1, an error carries no data, and the table,
the ports and the plan are as before; and so does every accepted command word, legal or not, at the edge that accepts it. That
`exec` completes so for a term with a count out of range too is the model's reading (log entry 5): R206 speaks of accepted words. -/
def Obligations.EveryCommandCompletesWithOneWrite : Prop :=
  (∀ (i : Instr) (s : State), legalAlphabet s.alphabet = true →
    ∃ st : Status, ∃ count word lanes, Answers (exec i s) s st.code.toNat count word lanes ∧ count ≤ 5 ∧
      (st ≠ .ok → count = 0 ∧ word = 0 ∧ lanes = 0)) ∧
  (∀ s : State, legalAlphabet s.alphabet = true → s.ports.rst = false → s.ports.cmdValid = true →
    ∃ st : Status, ∃ count word lanes, Edge s true st.code count word lanes ∧
      (st ≠ .ok → count = 0 ∧ word = 0 ∧ lanes = 0))

/-- The frame of the six commands (R73): ENC, ENCD, S2C and C2S write WORD with 0, DEC and DECD write LANES with 0, and none
writes the table, the ports or the plan. For a term with a count out of range this is the model's reading (log entry 5). -/
def Obligations.CommandsLeaveAllElseAsItWas : Prop :=
  ∀ (i : Instr) (s t : State), exec i s = .next t →
    t.alphabet = s.alphabet ∧ t.ports = s.ports ∧ t.schedule = s.schedule ∧ t.rspValid = true ∧
    (match i with
      | .enc _ | .encd _ | .s2c _ | .c2s _ => t.word = 0
      | .dec _ | .decd _ => t.lanes = 0)

/-- R27 and R126 (the spec marks both derived): COUNT after every command, and that the valid lanes and bytes are the leading
ones. A group of 1 to 3 bytes never gives 1 or 5 characters. For a term with a count out of range this is log entry 5. -/
def Obligations.CountFollowsTheTable : Prop :=
  ∀ (i : Instr) (s t : State), exec i s = .next t →
    (t.status = 0 → t.count.toNat = CountWhenOk i) ∧ (t.status ≠ 0 → t.count = 0) ∧
    TrailingLanesZero t.lanes t.count.toNat ∧ TrailingBytesZero t.word t.count.toNat ∧
    (∀ n : Count, (i = .enc n ∨ i = .encd n) → n.val ≤ 3 → t.count ≠ 1 ∧ t.count ≠ 5)

/-- R30, R31: a command's response depends on its word, the table, and the bytes or lanes that N selects, and on nothing else:
not on the registers, not on the other bytes and lanes, as a meaning and at the edge that accepts it; and an edge with
`cmd_valid = 0` does not depend on `cmd`, `in_word` or `in_lanes`. That `exec` of a term with a count out of range answers a next
state, and the same one here, is the model's reading (log entry 5): R30 and R31 speak of commands. -/
def Obligations.OnlySelectedOperandsMatter : Prop :=
  (∀ (i : Instr) (s s' : State), legalAlphabet s.alphabet = true → s'.alphabet = s.alphabet →
    SameOperand i s.ports s'.ports →
    ∃ t t', exec i s = .next t ∧ exec i s' = .next t' ∧ t'.outputs = t.outputs) ∧
  (∀ s s' : State, legalAlphabet s.alphabet = true → s'.alphabet = s.alphabet → s'.outputs = s.outputs →
    s'.ports.rst = s.ports.rst → s.ports.cmdValid = false → s'.ports.cmdValid = false →
    ∃ t t', step s = .next t ∧ step s' = .next t' ∧ t'.outputs = t.outputs) ∧
  (∀ s s' : State, legalAlphabet s.alphabet = true → s'.alphabet = s.alphabet →
    s.ports.rst = false → s.ports.cmdValid = true → s'.ports.rst = false → s'.ports.cmdValid = true →
    s'.ports.cmd = s.ports.cmd → (∀ i, decodeCmd s.ports.cmd = .ok i → SameOperand i s.ports s'.ports) →
    ∃ t t', step s = .next t ∧ step s' = .next t' ∧ t'.outputs = t.outputs)

/-- R77: N = 0 is legal for every opcode, reads nothing, and answers OK with all data 0. -/
def Obligations.EmptyGroupIsLegalForEveryOpcode : Prop :=
  ∀ (i : Instr) (s : State), legalAlphabet s.alphabet = true → i.count = 0 →
    i.WellFormed ∧ Answers (exec i s) s 0 0 0 0

/-- R58: after an edge that accepts a command, the response on the outputs is that command's and no other's, whatever was
accepted, held or reset at the edges before it: what `exec` answers for it in any state with the same table and ports, or
ILLEGAL_COMMAND for a word that is no command. -/
def Obligations.ResponseBelongsToTheCommandOfItsEdge : Prop :=
  ∀ (k : Nat) (s u : State) (p : Ports), legalAlphabet s.alphabet = true →
    ComingSamples s (k + 1) = ComingSamples s k ++ [p] → p.rst = false → p.cmdValid = true →
    u.alphabet = s.alphabet → u.ports = p →
    ∃ t, edges (k + 1) s = .next t ∧
      (∀ i, decodeCmd p.cmd = .ok i → ∃ v, exec i u = .next v ∧ t.outputs = v.outputs) ∧
      (∀ e, decodeCmd p.cmd = .error e → t.outputs = ⟨true, 4, 0, 0, 0⟩)

/-! ### alphabet_lut -/

/-- R100, R101: the two lookups, on a legal table. -/
def Obligations.CharToSymInvertsSymToChar : Prop :=
  ∀ a : Alphabet, legalAlphabet a = true →
    (∀ s ≤ 84, a[s]? = some (sym2char a s)) ∧
    (∀ (c : Byte) (s : Nat), char2sym a c = some s ↔ s ≤ 84 ∧ a[s]? = some c) ∧
    (∀ c : Byte, char2sym a c = none ↔ ∀ s ≤ 84, a[s]? ≠ some c)

/-- R103: the default table, and the lookup in it. -/
def Obligations.DefaultAlphabetIsContiguous : Prop :=
  legalAlphabet defaultAlphabet = true ∧ (∀ s < 85, sym2char defaultAlphabet s = BitVec.ofNat 8 (0x21 + s)) ∧
  (∀ c : Byte, char2sym defaultAlphabet c =
    if 0x21 ≤ c.toNat ∧ c.toNat ≤ 0x75 then some (c.toNat - 0x21) else none)

/-- R105: S2C: its result, its error, its word, and the rule's example. That `exec` of a count
out of range answers ILLEGAL_COMMAND is the model's reading (log entry 5): the rule gives the command legal counts only. -/
def Obligations.SymToCharCommandMapsTheLanes : Prop :=
  ∀ (n : Count) (s : State), legalAlphabet s.alphabet = true →
    (n.val ≤ 5 → (∀ i < n.val, (lane s.ports.inLanes i).toNat ≤ 84) →
      ∃ out, Answers (exec (.s2c n) s) s 0 n.val 0 out ∧
        (∀ i < n.val, s.alphabet[(lane s.ports.inLanes i).toNat]? = some (lane out i)) ∧
        ∀ i < 5, n.val ≤ i → lane out i = 0) ∧
    (n.val ≤ 5 → (∃ i < n.val, 84 < (lane s.ports.inLanes i).toNat) → Answers (exec (.s2c n) s) s 1 0 0 0) ∧
    (5 < n.val → Answers (exec (.s2c n) s) s 4 0 0 0) ∧
    (encode (.s2c n)).toNat = 8 * n.val + 4 ∧
    (s.alphabet = defaultAlphabet → s.ports.inLanes = 0x00012A5354 → Answers (exec (.s2c 5) s) s 0 5 0 0x21224B7475)

/-- R106: C2S: its result, its error, its word, and the rule's example. That `exec` of a count
out of range answers ILLEGAL_COMMAND is the model's reading (log entry 5): the rule gives the command legal counts only. -/
def Obligations.CharToSymCommandMapsTheLanes : Prop :=
  ∀ (n : Count) (s : State), legalAlphabet s.alphabet = true →
    (n.val ≤ 5 → (∀ i < n.val, lane s.ports.inLanes i ∈ s.alphabet) →
      ∃ out, Answers (exec (.c2s n) s) s 0 n.val 0 out ∧
        (∀ i < n.val, (lane out i).toNat ≤ 84 ∧ s.alphabet[(lane out i).toNat]? = some (lane s.ports.inLanes i)) ∧
        ∀ i < 5, n.val ≤ i → lane out i = 0) ∧
    (n.val ≤ 5 → (∃ i < n.val, lane s.ports.inLanes i ∉ s.alphabet) → Answers (exec (.c2s n) s) s 1 0 0 0) ∧
    (5 < n.val → Answers (exec (.c2s n) s) s 4 0 0 0) ∧
    (encode (.c2s n)).toNat = 8 * n.val + 5 ∧
    (s.alphabet = defaultAlphabet → s.ports.inLanes = 0x396A716F5E → Answers (exec (.c2s 5) s) s 0 5 0 0x1849504E3D)

/-- R107 (the spec marks it derived): S2C and C2S are inverse on legal input, in both orders. -/
def Obligations.SymToCharAndCharToSymAreInverse : Prop :=
  ∀ (n : Count) (s : State), legalAlphabet s.alphabet = true → n.val ≤ 5 →
    ((∀ i < n.val, (lane s.ports.inLanes i).toNat ≤ 84) →
      ∃ t u, exec (.s2c n) s = .next t ∧ exec (.c2s n) (WithLanes s t.lanes) = .next u ∧ u.status = 0 ∧
        ∀ i < n.val, lane u.lanes i = lane s.ports.inLanes i) ∧
    ((∀ i < n.val, lane s.ports.inLanes i ∈ s.alphabet) →
      ∃ t u, exec (.c2s n) s = .next t ∧ exec (.s2c n) (WithLanes s t.lanes) = .next u ∧ u.status = 0 ∧
        ∀ i < n.val, lane u.lanes i = lane s.ports.inLanes i)

/-! ### base85_encoder -/

/-- R120: the five digits of a group integer, and that they are base 85 digits of it. The bound on the first digit, that its
`mod 85` changes nothing, the weights and the digits of 0xFFFFFFFF are R121, which the spec marks as its own inference. -/
def Obligations.EncoderDigitsAreBase85 : Prop :=
  (∀ v < 2 ^ 32, ∃ d0 d1 d2 d3 d4, enc5 v = [d0, d1, d2, d3, d4] ∧
    d0 = v / 85 ^ 4 % 85 ∧ d1 = v / 85 ^ 3 % 85 ∧ d2 = v / 85 ^ 2 % 85 ∧ d3 = v / 85 % 85 ∧ d4 = v % 85 ∧
    v = d0 * 85 ^ 4 + d1 * 85 ^ 3 + d2 * 85 ^ 2 + d3 * 85 + d4 ∧ d0 ≤ 82 ∧ v / 85 ^ 4 % 85 = v / 85 ^ 4) ∧
  85 ^ 0 = 1 ∧ 85 ^ 1 = 85 ∧ 85 ^ 2 = 7225 ∧ 85 ^ 3 = 614125 ∧ 85 ^ 4 = 52200625 ∧ 85 ^ 5 = 4437053124 + 1 ∧
  4294967295 / 52200625 = 82 ∧ 4294967295 % 52200625 = 14516045 ∧ enc5 0xFFFFFFFF = [82, 23, 54, 12, 0]

/-- R123: ENC: its result, its word, and the rule's examples. That `exec` of a count out of range answers ILLEGAL_COMMAND is the
model's reading (log entry 5): R123 says it of the word `cmd`. -/
def Obligations.EncodeCommandGivesCharacters : Prop :=
  ∀ (n : Count) (s : State), legalAlphabet s.alphabet = true →
    (n.val ≤ 4 → ∃ out, Answers (exec (.enc n) s) s 0 (if n.val = 0 then 0 else n.val + 1) 0 out ∧
      (n.val ≠ 0 → ∀ i ≤ n.val,
        s.alphabet[ZeroPadded n.val s.ports.inWord / 85 ^ (4 - i) % 85]? = some (lane out i)) ∧
      (∀ i < 5, n.val = 0 ∨ n.val < i → lane out i = 0) ∧
      (n.val ≠ 0 → s.alphabet[83]? ≠ some (lane out 0) ∧ s.alphabet[84]? ≠ some (lane out 0))) ∧
    (4 < n.val → Answers (exec (.enc n) s) s 4 0 0 0) ∧
    (encode (.enc n)).toNat = 8 * n.val ∧
    (s.alphabet = defaultAlphabet →
      (s.ports.inWord = 0x4D616E20 → Answers (exec (.enc 4) s) s 0 5 0 0x396A716F5E) ∧
      (s.ports.inWord = 0xFFFFFFFF → Answers (exec (.enc 4) s) s 0 5 0 0x7338572D21) ∧
      (s.ports.inWord = 0 → Answers (exec (.enc 4) s) s 0 5 0 0x2121212121))

/-- R124: ENCD: its result, its word, and the rule's example. That `exec` of a count
out of range answers ILLEGAL_COMMAND is the model's reading (log entry 5): the rule gives the command legal counts only. -/
def Obligations.EncodeDigitsCommandGivesDigits : Prop :=
  ∀ (n : Count) (s : State), legalAlphabet s.alphabet = true →
    (n.val ≤ 4 → ∃ out, Answers (exec (.encd n) s) s 0 (if n.val = 0 then 0 else n.val + 1) 0 out ∧
      (n.val ≠ 0 → ∀ i ≤ n.val,
        (lane out i).toNat = ZeroPadded n.val s.ports.inWord / 85 ^ (4 - i) % 85) ∧
      (∀ i < 5, n.val = 0 ∨ n.val < i → lane out i = 0) ∧ (lane out 0).toNat ≤ 82) ∧
    (4 < n.val → Answers (exec (.encd n) s) s 4 0 0 0) ∧
    (encode (.encd n)).toNat = 8 * n.val + 2 ∧
    (s.ports.inWord = 0xFFFFFFFF → Answers (exec (.encd 4) s) s 0 5 0 0x5217360C00)

/-- R125 (the spec marks it derived): ENC is ENCD followed by S2C. -/
def Obligations.EncodeIsEncodeDigitsThenSymToChar : Prop :=
  ∀ (n : Count) (s : State), legalAlphabet s.alphabet = true → n.val ≤ 4 →
    ∃ t u v, exec (.enc n) s = .next t ∧ exec (.encd n) s = .next u ∧
      exec (.s2c (Fin.ofNat 8 u.count.toNat)) (WithLanes s u.lanes) = .next v ∧
      t.status = u.status ∧ t.count = u.count ∧ t.lanes = v.lanes

/-! ### base85_decoder -/

/-- R140: the range of `dec5` on digits, and that every value of that range has exactly one digit sequence. -/
def Obligations.DecoderValueIsExact : Prop :=
  (∀ d0 d1 d2 d3 d4 : Nat, dec5 [d0, d1, d2, d3, d4] = d0 * 85 ^ 4 + d1 * 85 ^ 3 + d2 * 85 ^ 2 + d3 * 85 + d4) ∧
  (∀ ds : List Nat, ds.length = 5 → (∀ d ∈ ds, d ≤ 84) → dec5 ds ≤ 4437053124) ∧
  (∀ ds es : List Nat, ds.length = 5 → es.length = 5 → (∀ d ∈ ds, d ≤ 84) → (∀ e ∈ es, e ≤ 84) →
    dec5 ds = dec5 es → ds = es) ∧
  (∀ v ≤ 4437053124, ∃ ds : List Nat, ds.length = 5 ∧ (∀ d ∈ ds, d ≤ 84) ∧ dec5 ds = v)

/-- R146: DEC: its errors in the order of R205, its result, its word, and the rule's examples. That `exec` of a count
out of range answers ILLEGAL_COMMAND is the model's reading (log entry 5): the rule gives the command legal counts only. -/
def Obligations.DecodeCommandGivesBytes : Prop :=
  ∀ (k : Count) (s : State), legalAlphabet s.alphabet = true →
    (5 < k.val → Answers (exec (.dec k) s) s 4 0 0 0) ∧
    (k.val ≤ 5 → (∃ i < k.val, lane s.ports.inLanes i ∉ s.alphabet) → Answers (exec (.dec k) s) s 1 0 0 0) ∧
    (k.val = 0 → Answers (exec (.dec k) s) s 0 0 0 0) ∧
    (k.val = 1 → lane s.ports.inLanes 0 ∈ s.alphabet → Answers (exec (.dec k) s) s 2 0 0 0) ∧
    (2 ≤ k.val → k.val ≤ 5 → ∀ d : Nat → Nat, (∀ i < k.val, s.alphabet[d i]? = some (lane s.ports.inLanes i)) →
      (∀ i < 5, k.val ≤ i → d i = 84) → DecodesGroup (exec (.dec k) s) s k.val d) ∧
    (encode (.dec k)).toNat = 8 * k.val + 1 ∧
    (s.alphabet = defaultAlphabet →
      (s.ports.inLanes = 0x396A716F5E → Answers (exec (.dec 5) s) s 0 4 0x4D616E20 0) ∧
      (s.ports.inLanes = 0x7575757575 → Answers (exec (.dec 5) s) s 3 0 0 0))

/-- R147: DECD: its errors in the order of R205, its result, its word, and the rule's example. That `exec` of a count
out of range answers ILLEGAL_COMMAND is the model's reading (log entry 5): the rule gives the command legal counts only. -/
def Obligations.DecodeDigitsCommandGivesBytes : Prop :=
  ∀ (k : Count) (s : State), legalAlphabet s.alphabet = true →
    (5 < k.val → Answers (exec (.decd k) s) s 4 0 0 0) ∧
    (k.val ≤ 5 → (∃ i < k.val, 84 < (lane s.ports.inLanes i).toNat) → Answers (exec (.decd k) s) s 1 0 0 0) ∧
    (k.val = 0 → Answers (exec (.decd k) s) s 0 0 0 0) ∧
    (k.val = 1 → (lane s.ports.inLanes 0).toNat ≤ 84 → Answers (exec (.decd k) s) s 2 0 0 0) ∧
    (2 ≤ k.val → k.val ≤ 5 → (∀ i < k.val, (lane s.ports.inLanes i).toNat ≤ 84) →
      DecodesGroup (exec (.decd k) s) s k.val fun i => if i < k.val then (lane s.ports.inLanes i).toNat else 84) ∧
    (encode (.decd k)).toNat = 8 * k.val + 3 ∧
    (s.ports.inLanes = 0x5217360C01 → Answers (exec (.decd 5) s) s 3 0 0 0)

/-- R151 (the spec marks it derived): DEC is C2S followed by DECD, except that DEC reports C2S's INVALID_CHARACTER directly. -/
def Obligations.DecodeIsCharToSymThenDecodeDigits : Prop :=
  ∀ (k : Count) (s : State), legalAlphabet s.alphabet = true → k.val ≤ 5 →
    ∃ t u v, exec (.dec k) s = .next t ∧ exec (.c2s k) s = .next u ∧ exec (.decd k) (WithLanes s u.lanes) = .next v ∧
      (u.status = 0 → t.outputs = v.outputs) ∧ (u.status ≠ 0 → u.status = 1 ∧ t.status = 1)

/-- R104, R142: DEC of 2 to 4 characters is DEC of the group completed with the alphabet's maximum-value character, with only
the leading bytes kept. -/
def Obligations.PartialGroupIsPaddedWithTheMaximumCharacter : Prop :=
  ∀ (k : Count) (s : State) (full : Lanes), legalAlphabet s.alphabet = true → 2 ≤ k.val → k.val ≤ 4 →
    (∀ i < k.val, lane full i = lane s.ports.inLanes i) →
    (∀ i < 5, k.val ≤ i → s.alphabet[84]? = some (lane full i)) →
    char2sym s.alphabet (maxChar s.alphabet) = some 84 ∧
    ∃ t u, exec (.dec k) s = .next t ∧ exec (.dec 5) (WithLanes s full) = .next u ∧ t.status = u.status ∧
      t.word = keepbytes u.word (k.val - 1)

/-- R149 (the spec marks it derived): encoding a group and decoding the characters gives the group back. -/
def Obligations.GroupRoundTrip : Prop :=
  ∀ (n m : Count) (s : State), legalAlphabet s.alphabet = true → 1 ≤ n.val → n.val ≤ 4 → m.val = n.val + 1 →
    ∃ t u, exec (.enc n) s = .next t ∧ t.count.toNat = n.val + 1 ∧ exec (.dec m) (WithLanes s t.lanes) = .next u ∧
      u.status = 0 ∧ u.count.toNat = n.val ∧ u.word = keepbytes s.ports.inWord n.val

/-- R150 (the spec marks it derived): a group of `k` digits is accepted exactly when its prefix value is at most the limit, and
the table of limits. -/
def Obligations.OverflowLimitsPerGroupLength : Prop :=
  let limit := fun k : Nat => (2 ^ 32 - 1 - (85 ^ (5 - k) - 1)) / 85 ^ (5 - k)
  (∀ (k : Count) (s : State), legalAlphabet s.alphabet = true → 2 ≤ k.val → k.val ≤ 5 →
    (∀ i < k.val, (lane s.ports.inLanes i).toNat ≤ 84) →
    ∃ t, exec (.decd k) s = .next t ∧
      (t.status = 0 ↔
        ((List.range k.val).map fun i => (lane s.ports.inLanes i).toNat * 85 ^ (k.val - 1 - i)).sum ≤ limit k.val) ∧
      (t.status ≠ 0 → t.status = 3)) ∧
  limit 2 = 6992 ∧ limit 3 = 594458 ∧ limit 4 = 50529026 ∧ limit 5 = 4294967295 ∧
  82 * 85 + 22 = 6992 ∧ (82 * 85 + 23) * 85 + 53 = 594458 ∧ ((82 * 85 + 23) * 85 + 54) * 85 + 11 = 50529026 ∧
  (((82 * 85 + 23) * 85 + 54) * 85 + 12) * 85 + 0 = 4294967295 ∧
  (∀ s : State, s.alphabet = defaultAlphabet →
    (s.ports.inLanes = 0x7337000000 → Answers (exec (.dec 2) s) s 0 1 0xFF000000 0) ∧
    (s.ports.inLanes = 0x7338000000 → Answers (exec (.dec 2) s) s 3 0 0 0) ∧
    (s.ports.inLanes = 0x7338560000 → Answers (exec (.dec 3) s) s 0 2 0xFFFF0000 0) ∧
    (s.ports.inLanes = 0x7338570000 → Answers (exec (.dec 3) s) s 3 0 0 0) ∧
    (s.ports.inLanes = 0x7338572C00 → Answers (exec (.dec 4) s) s 0 3 0xFFFFFF00 0) ∧
    (s.ports.inLanes = 0x7338572D00 → Answers (exec (.dec 4) s) s 3 0 0 0) ∧
    (s.ports.inLanes = 0x7338572D21 → Answers (exec (.dec 5) s) s 0 4 0xFFFFFFFF 0) ∧
    (s.ports.inLanes = 0x7338572D22 → Answers (exec (.dec 5) s) s 3 0 0 0))

/-- R148: no canonical-form check: a partial group that is accepted decodes to the same bytes as the canonical group for those
bytes, and the non-canonical `"5m"` is one that is accepted. -/
def Obligations.AcceptedPartialGroupsDecodeLikeTheCanonicalOne : Prop :=
  (∀ (k n : Count) (s t : State), 2 ≤ k.val → k.val ≤ 4 → k.val = n.val + 1 →
    exec (.dec k) s = .next t → t.status = 0 →
    ∃ u v, exec (.enc n) (WithWord s t.word) = .next u ∧
      exec (.dec k) (WithLanes s u.lanes) = .next v ∧ v.status = 0 ∧ v.word = t.word) ∧
  (∀ s : State, s.alphabet = defaultAlphabet → s.ports.inLanes = 0x356C000000 ∨ s.ports.inLanes = 0x356D000000 →
    Answers (exec (.dec 2) s) s 0 1 0x41000000 0) ∧
  (∀ s : State, s.alphabet = defaultAlphabet → s.ports.inWord = 0x41000000 →
    Answers (exec (.enc 1) s) s 0 2 0 0x356C000000)

/-! ### Status -/

/-- R200, R205: the codes, and that a command reports exactly one of the causes that apply to it, the first in the order
ILLEGAL_COMMAND, INVALID_CHARACTER, INVALID_LENGTH, GROUP_OVERFLOW, or OK when none applies; a word that is no command at all
reports ILLEGAL_COMMAND. That `exec` of a term with a count out of range reports it is the model's reading (log entry 5): R200 and
R204 speak of the word `cmd`. -/
def Obligations.StatusIsTheFirstCauseThatApplies : Prop :=
  Status.ok.code = 0 ∧ Status.invalidCharacter.code = 1 ∧ Status.invalidLength.code = 2 ∧ Status.groupOverflow.code = 3 ∧
  Status.illegalCommand.code = 4 ∧
  (∀ (i : Instr) (s : State), legalAlphabet s.alphabet = true →
    ∃ t st, exec i s = .next t ∧ t.status = Status.code st ∧ (st = .ok ∨ CauseApplies i s st) ∧
      (CauseApplies i s .illegalCommand → st = .illegalCommand) ∧
      (CauseApplies i s .invalidCharacter → st = .illegalCommand ∨ st = .invalidCharacter) ∧
      (CauseApplies i s .invalidLength → st = .illegalCommand ∨ st = .invalidCharacter ∨ st = .invalidLength) ∧
      (CauseApplies i s .groupOverflow → st ≠ .ok)) ∧
  (∀ s : State, legalAlphabet s.alphabet = true → s.ports.rst = false → s.ports.cmdValid = true →
    (∀ i, decodeCmd s.ports.cmd ≠ .ok i) → Edge s true (Status.code .illegalCommand) 0 0 0)

/-- R213 (the spec marks it derived): the three decode failures have distinct codes and each can be produced alone (default
alphabet). -/
def Obligations.DecodeFailuresCanBeToldApart : Prop :=
  ∀ s : State, s.alphabet = defaultAlphabet →
    (s.ports.inLanes = 0x2100000000 → Answers (exec (.dec 1) s) s 2 0 0 0) ∧
    (s.ports.inLanes = 0x7575757575 → Answers (exec (.dec 5) s) s 3 0 0 0) ∧
    (lane s.ports.inLanes 0 = 0x20 → Answers (exec (.dec 2) s) s 1 0 0 0) ∧
    Status.invalidCharacter.code ≠ Status.invalidLength.code ∧ Status.invalidCharacter.code ≠ Status.groupOverflow.code ∧
    Status.invalidLength.code ≠ Status.groupOverflow.code

/-- R22: each output port reads the register of the same name. -/
def Obligations.OutputPortsReadTheRegisters : Prop :=
  ∀ s : State, s.outputs.rspValid = s.rspValid ∧ s.outputs.outStatus = s.status ∧ s.outputs.outCount = s.count ∧
    s.outputs.outWord = s.word ∧ s.outputs.outLanes = s.lanes

/-- R52, R53: the place of byte `j` and of lane `i`, and the value of a group. -/
def Obligations.BytesAndLanesAreMostSignificantFirst : Prop :=
  (∀ b0 b1 b2 b3 : Byte, (wordOfBytes b0 b1 b2 b3).toNat =
    b0.toNat * 2 ^ 24 + b1.toNat * 2 ^ 16 + b2.toNat * 2 ^ 8 + b3.toNat) ∧
  (∀ (w : Word) (j : Nat), j < 4 → (byte w j).toNat = w.toNat / 2 ^ (24 - 8 * j) % 256) ∧
  (∀ (l : Lanes) (i : Nat), i < 5 → (lane l i).toNat = l.toNat / 2 ^ (32 - 8 * i) % 256)

/-! ### Host procedures, programs and several blocks -/

/-- R56: the groups of a raw buffer are cut at every 4th byte and those of an encoded buffer at every 5th character, from offset
0; so how many commands each procedure issues (R240). -/
def Obligations.BuffersArePartitionedAtGroupBoundaries : Prop :=
  ∀ b : List Byte,
    (rawGroups b).flatten = b ∧ (rawGroups b).length = (b.length + 3) / 4 ∧
    (∀ g, ∀ x ∈ (rawGroups b)[g]?, x = (b.drop (4 * g)).take 4 ∧ x ≠ []) ∧
    (encodedGroups b).flatten = b ∧ (encodedGroups b).length = (b.length + 4) / 5 ∧
    (∀ g, ∀ x ∈ (encodedGroups b)[g]?, x = (b.drop (5 * g)).take 5 ∧ x ≠ [])

/-- R171, R172 (the spec marks R172 derived): ENCODE_BUFFER never fails, and the length of what it gives; no length is 1 modulo
5. -/
def Obligations.EncodedBufferLength : Prop :=
  ∀ (fill : Word) (b : List Byte) (s : State), legalAlphabet s.alphabet = true →
    ∃ t out, encodeBuffer fill b s = .next (t, out) ∧
      out.length = 5 * (b.length / 4) + (if b.length % 4 = 0 then 0 else b.length % 4 + 1) ∧ out.length % 5 ≠ 1

/-- R170, R171: what ENCODE_BUFFER and DECODE_BUFFER give depends on the buffer and the table alone: not on the block's
registers or what else the host drives, and not on the filler bytes of a short group. That the ports and the plan are as before
afterwards is the model's, not the rules': commands are issued ahead of the plan (log entry 10), which State holds as
`ports` and `schedule` (log entry 1). -/
def Obligations.BufferProceduresDependOnTheBufferAlone : Prop :=
  ∀ (fill fill' : Word) (b : List Byte) (s s' : State), legalAlphabet s.alphabet = true → s'.alphabet = s.alphabet →
    (∃ t t' out, encodeBuffer fill b s = .next (t, out) ∧ encodeBuffer fill' b s' = .next (t', out) ∧
      t.ports = s.ports ∧ t.schedule = s.schedule ∧ t.alphabet = s.alphabet) ∧
    (∃ t t' r, decodeBuffer b s = .next (t, r) ∧ decodeBuffer b s' = .next (t', r) ∧
      t.ports = s.ports ∧ t.schedule = s.schedule ∧ t.alphabet = s.alphabet)

/-- R174, R175: the error DECODE_BUFFER reports is the one of highest priority among its groups' statuses; that is the document's
order: every character first, then the length, then overflow. It gives bytes only when no group fails. -/
def Obligations.BufferFailureIsTheHighestPriority : Prop :=
  ∀ (b : List Byte) (s : State), legalAlphabet s.alphabet = true →
    ∃ t r, decodeBuffer b s = .next (t, r) ∧
      (∀ e, r = .failure e ↔ e ≠ .ok ∧ (∃ g ∈ encodedGroups b, GroupStatus s g e) ∧
        ∀ g ∈ encodedGroups b, ∀ e', GroupStatus s g e' → e'.priority ≤ e.priority) ∧
      ((∃ c ∈ b, c ∉ s.alphabet) → r = .failure .invalidCharacter) ∧
      ((∀ c ∈ b, c ∈ s.alphabet) → b.length % 5 = 1 → r = .failure .invalidLength) ∧
      ((∀ c ∈ b, c ∈ s.alphabet) → b.length % 5 ≠ 1 → (∃ g ∈ encodedGroups b, GroupOverflows s.alphabet g) →
        r = .failure .groupOverflow) ∧
      ((∀ c ∈ b, c ∈ s.alphabet) → b.length % 5 ≠ 1 → (∀ g ∈ encodedGroups b, ¬ GroupOverflows s.alphabet g) →
        ∃ out, r = .bytes out)

/-- R176 (the spec marks it derived): the length of what DECODE_BUFFER gives when it succeeds, which it never does for a length
of 1 modulo 5. -/
def Obligations.DecodedBufferLength : Prop :=
  ∀ (b out : List Byte) (s t : State), decodeBuffer b s = .next (t, .bytes out) →
    b.length % 5 ≠ 1 ∧ out.length = 4 * (b.length / 5) + (if b.length % 5 = 0 then 0 else b.length % 5 - 1)

/-- R177 (the spec marks it derived): decoding what ENCODE_BUFFER gives succeeds and gives the buffer back, encoding that again
gives the same characters, and `"5m"` shows that the reverse fails for a non-canonical group (default alphabet). -/
def Obligations.BufferRoundTrip : Prop :=
  (∀ (fill fill' : Word) (b : List Byte) (s : State), legalAlphabet s.alphabet = true →
    ∃ t u v out, encodeBuffer fill b s = .next (t, out) ∧ decodeBuffer out t = .next (u, .bytes b) ∧
      encodeBuffer fill' b u = .next (v, out)) ∧
  (∀ (fill : Word) (s : State), s.alphabet = defaultAlphabet →
    ∃ t u, decodeBuffer [0x35, 0x6D] s = .next (t, .bytes [0x41]) ∧ encodeBuffer fill [0x41] t = .next (u, [0x35, 0x6C]))

/-- R178 (the spec marks it derived): every character ENCODE_BUFFER gives is in the alphabet, and DECODE_BUFFER fails with
INVALID_CHARACTER on a buffer that holds any other byte. -/
def Obligations.BuffersStayInTheAlphabet : Prop :=
  (∀ (fill : Word) (b out : List Byte) (s t : State), encodeBuffer fill b s = .next (t, out) → ∀ c ∈ out, c ∈ s.alphabet) ∧
  (∀ (b : List Byte) (c : Byte) (s : State), legalAlphabet s.alphabet = true → c ∈ b → c ∉ s.alphabet →
    ∃ t, decodeBuffer b s = .next (t, .failure .invalidCharacter))

/-- R79: a program runs one line an edge, and what its lines put on the ports. Two things are the model's, not R79's: that a
program is loaded as `ports` and `schedule`, so that after a step on its first line the rest of it is loaded (log entry 1), and
that an operand port which a line does not name is 0 (log entry 14). -/
def Obligations.ProgramLinesRunOneAnEdge : Prop :=
  (∀ (l : Line) (ls : List Line) (s t : State), step (s.loadProgram (l :: ls)) = .next t → t.loadProgram ls = t) ∧
  (∀ (i : Instr) (w : Word), (Line.word i w).ports = { rst := false, cmdValid := true, cmd := encode i, inWord := w, inLanes := 0 }) ∧
  (∀ (i : Instr) (vs : List Byte), (Line.values i vs).ports.cmdValid = true ∧ (Line.values i vs).ports.rst = false ∧
    (Line.values i vs).ports.cmd = encode i ∧
    ∀ j < 5, lane (Line.values i vs).ports.inLanes j = if h : j < vs.length then vs[j] else 0) ∧
  (∀ (i : Instr) (l : Lanes), (Line.whole i l).ports = { rst := false, cmdValid := true, cmd := encode i, inWord := 0, inLanes := l }) ∧
  (∀ c : Byte, (Line.cmd c).ports = { rst := false, cmdValid := true, cmd := c, inWord := 0, inLanes := 0 }) ∧
  Line.idle.ports.cmdValid = false ∧ Line.idle.ports.rst = false ∧ Line.reset.ports.rst = true

/-- R212: an edge of one block of a system changes that block as it would alone, no other block, and not the table that they have
in common. The form is the model's choice, not R212's: a system is one table and a list of blocks, and one edge of one block is one
step of it (log entry 12). -/
def Obligations.BlocksShareNoState : Prop :=
  ∀ (y : System) (k : Nat) (s : State), y.unit k = some s → legalAlphabet y.alphabet = true →
    ∃ t z, step s = .next t ∧ stepUnit k y = .next z ∧ z.blocks.length = y.blocks.length ∧ z.unit k = some t ∧
      (∀ j, j ≠ k → z.unit j = y.unit j) ∧ z.alphabet = y.alphabet ∧ ∀ j u, z.unit j = some u → u.alphabet = y.alphabet

/-- R212: two blocks of a system are independent: an edge of the one and an edge of the other lead to the same system, or stop alike,
in either order, whatever the table is. That a system moves one edge of one block at a time is the model's choice (log entry 12). -/
def Obligations.EdgesOfTwoBlocksCommute : Prop :=
  ∀ (y : System) (j k : Nat), j ≠ k → andThen (stepUnit j y) (stepUnit k) = andThen (stepUnit k y) (stepUnit j)
end

