-- ==== Sys2Proof/Laws/Alphabet.lean ====
section
/-! SUPPORT. The table and its two lookups (40_alphabet_lut.md): the legality check in R102's own words, and what `char2sym`
answers on any table and on a legal one. -/

namespace Sys2Proof.Machine

theorem printable_iff (c : Byte) : printable c = true ↔ 0x21 ≤ c.toNat ∧ c.toNat ≤ 0x7E := by
  simp only [printable, Bool.and_eq_true, Nat.ble_eq]

/-- The model's distinctness check is the library's. -/
theorem pairwiseDistinct_iff (a : Alphabet) : pairwiseDistinct a = true ↔ a.Nodup := by
  induction a with
  | nil => simp [pairwiseDistinct]
  | cons c a ih =>
    simp only [pairwiseDistinct, Bool.and_eq_true, ih, List.nodup_cons, List.all_eq_true, Bool.not_eq_true']
    refine and_congr_left fun _ => ⟨fun h hc => ?_, fun h x hx => ?_⟩
    · exact absurd (h c hc) (by rw [Nat.beq_refl]; exact Bool.noConfusion)
    · refine Bool.eq_false_iff.2 fun e => h ?_
      rw [← BitVec.eq_of_toNat_eq (Nat.eq_of_beq_eq_true e)]; exact hx

/-- The entry at a symbol value in range (R100). -/
theorem sym2char_of_getElem? {a : Alphabet} {s : Nat} {c : Byte} (h : a[s]? = some c) : sym2char a s = c := by
  simp [sym2char, h]

theorem getElem?_sym2char {a : Alphabet} (h : legalAlphabet a = true) {s : Nat} (hs : s ≤ 84) :
    a[s]? = some (sym2char a s) := by
  have hl : a.length = 85 := by
    simp only [legalAlphabet, Bool.and_eq_true, beq_iff_eq] at h; exact h.1.1
  simp [sym2char, List.getD, List.getElem?_eq_getElem (by omega : s < a.length)]

/-- What R101's loop answers, started at symbol value `n`: the first position that holds `c`. -/
theorem char2symFrom_eq_some {a : Alphabet} {n s : Nat} {c : Byte} :
    char2symFrom n a c = some s ↔ n ≤ s ∧ a[s - n]? = some c ∧ ∀ j < s - n, a[j]? ≠ some c := by
  induction a generalizing n with
  | nil => simp [char2symFrom]
  | cons x a ih =>
    rw [char2symFrom]
    split
    · rename_i h
      subst h
      constructor
      · rintro ⟨⟩; simp
      · rintro ⟨h1, -, h3⟩
        rcases Nat.eq_or_lt_of_le h1 with rfl | hlt
        · rfl
        · exact absurd rfl (h3 0 (by omega))
    · rename_i h
      rw [ih]
      constructor
      · rintro ⟨h1, h2, h3⟩
        obtain ⟨k, rfl⟩ : ∃ k, s = n + 1 + k := ⟨s - (n + 1), by omega⟩
        rw [show n + 1 + k - (n + 1) = k by omega] at h2 h3
        rw [show n + 1 + k - n = k + 1 by omega]
        refine ⟨by omega, by simpa using h2, fun j hj => ?_⟩
        cases j with
        | zero => simpa using h
        | succ j => simpa using h3 j (by omega)
      · rintro ⟨h1, h2, h3⟩
        rcases Nat.eq_or_lt_of_le h1 with rfl | hlt
        · simp [h] at h2
        · obtain ⟨k, rfl⟩ : ∃ k, s = n + 1 + k := ⟨s - (n + 1), by omega⟩
          rw [show n + 1 + k - n = k + 1 by omega] at h2 h3
          rw [show n + 1 + k - (n + 1) = k by omega]
          exact ⟨by omega, by simpa using h2, fun j hj => by simpa using h3 (j + 1) (by omega)⟩

theorem char2sym_eq_none {a : Alphabet} {c : Byte} : char2sym a c = none ↔ c ∉ a := by
  suffices h : ∀ n, char2symFrom n a c = none ↔ c ∉ a from h 0
  induction a with
  | nil => simp [char2symFrom]
  | cons x a ih =>
    intro n
    rw [char2symFrom]
    split
    · simp [*]
    · rename_i h; rw [ih]; simp [Ne.symm h]

/-- Validated digit lanes: each is at most 84, and the symbol values are the lane values (R201). -/
theorem symbolsOfDigits_eq_some {cs : List Byte} {ds : List Nat} :
    symbolsOfDigits cs = some ds ↔ (∀ c ∈ cs, c.toNat ≤ 84) ∧ ds = cs.map BitVec.toNat := by
  induction cs generalizing ds with
  | nil => simp [symbolsOfDigits, eq_comm]
  | cons c cs ih =>
    rw [symbolsOfDigits]
    cases hs : symbolsOfDigits cs with
    | none =>
      have := fun ds => (ih (ds := ds)).not.1 (by simp [hs])
      simp only [List.mem_cons, forall_eq_or_imp, reduceCtorEq, false_iff]
      exact fun h => this _ ⟨h.1.2, rfl⟩
    | some es =>
      obtain ⟨h, rfl⟩ := ih.1 hs
      simp only [List.mem_cons, forall_eq_or_imp, List.map_cons]
      by_cases hc : c.toNat ≤ 84
      · simp only [hc, true_and, if_true, Option.some.injEq, eq_comm (a := ds)]
        exact (and_iff_right h).symm
      · simp [hc]

/-- One digit lane above 84 and the list fails (R201). -/
theorem symbolsOfDigits_eq_none {cs : List Byte} : symbolsOfDigits cs = none ↔ ∃ c ∈ cs, 84 < c.toNat := by
  rw [Option.eq_none_iff_forall_ne_some]
  constructor
  · intro h
    by_contra hn
    exact h _ (symbolsOfDigits_eq_some.2 ⟨fun c hc => Nat.le_of_not_lt fun hlt => hn ⟨c, hc, hlt⟩, rfl⟩)
  · rintro ⟨c, hc, hlt⟩ ds h
    exact absurd ((symbolsOfDigits_eq_some.1 h).1 c hc) (by omega)

/-- Validated characters, one by one (R201). -/
theorem symbolsOfChars_eq_some {a : Alphabet} {cs : List Byte} {ds : List Nat} :
    symbolsOfChars a cs = some ds ↔ List.Forall₂ (fun c d => char2sym a c = some d) cs ds := by
  induction cs generalizing ds with
  | nil => simp [symbolsOfChars, eq_comm]
  | cons c cs ih =>
    rw [symbolsOfChars, List.forall₂_cons_left_iff]
    simp only [← ih]
    cases char2sym a c <;> cases symbolsOfChars a cs <;> simp [eq_comm]

/-- One character out of alphabet and the list fails (R201). -/
theorem symbolsOfChars_eq_none {a : Alphabet} {cs : List Byte} : symbolsOfChars a cs = none ↔ ∃ c ∈ cs, c ∉ a := by
  induction cs with
  | nil => simp [symbolsOfChars]
  | cons c cs ih =>
    rw [symbolsOfChars]
    cases hc : char2sym a c <;> cases hs : symbolsOfChars a cs
    all_goals simp_all [← char2sym_eq_none (a := a) (c := c)]

end Sys2Proof.Machine
end

