-- ==== Sys2Proof/Laws/Bits.lean ====
section
/-! SUPPORT. Bytes, lanes and masks (R11): their values as numbers, reading back what was packed, and that two words or lane
values with the same parts are equal. -/

namespace Sys2Proof.Machine

/-- Concatenation with the left part in the more significant bits (R10). -/
theorem append_toNat {m n : Nat} (x : BitVec m) (y : BitVec n) : (x ++ y).toNat = x.toNat * 2 ^ n + y.toNat := by
  rw [BitVec.toNat_append, ← Nat.shiftLeft_add_eq_or_of_lt y.isLt, Nat.shiftLeft_eq]

/-- Lane 0 has the greatest weight (R53). -/
theorem lanesOfBytes_toNat (a0 a1 a2 a3 a4 : Byte) : (lanesOfBytes a0 a1 a2 a3 a4).toNat =
    a0.toNat * 2 ^ 32 + a1.toNat * 2 ^ 24 + a2.toNat * 2 ^ 16 + a3.toNat * 2 ^ 8 + a4.toNat := by
  show (a0 ++ a1 ++ a2 ++ a3 ++ a4).toNat = _
  simp only [append_toNat]; omega

/-- Byte 0 has the greatest weight: the group integer of R52. -/
theorem wordOfBytes_toNat (b0 b1 b2 b3 : Byte) : (wordOfBytes b0 b1 b2 b3).toNat =
    b0.toNat * 2 ^ 24 + b1.toNat * 2 ^ 16 + b2.toNat * 2 ^ 8 + b3.toNat := by
  show (b0 ++ b1 ++ b2 ++ b3).toNat = _
  simp only [append_toNat]; omega

theorem lane_toNat (l : Lanes) (i : Nat) : (lane l i).toNat = l.toNat / 2 ^ (32 - 8 * i) % 256 := by
  simp [lane, BitVec.extractLsb'_toNat, Nat.shiftRight_eq_div_pow]

theorem byte_toNat (w : Word) (j : Nat) : (byte w j).toNat = w.toNat / 2 ^ (24 - 8 * j) % 256 := by
  simp [byte, BitVec.extractLsb'_toNat, Nat.shiftRight_eq_div_pow]

theorem lane_lanesOfBytes (a0 a1 a2 a3 a4 : Byte) :
    lane (lanesOfBytes a0 a1 a2 a3 a4) 0 = a0 ∧ lane (lanesOfBytes a0 a1 a2 a3 a4) 1 = a1 ∧
    lane (lanesOfBytes a0 a1 a2 a3 a4) 2 = a2 ∧ lane (lanesOfBytes a0 a1 a2 a3 a4) 3 = a3 ∧
    lane (lanesOfBytes a0 a1 a2 a3 a4) 4 = a4 := by
  refine ⟨?_, ?_, ?_, ?_, ?_⟩ <;>
    (apply BitVec.eq_of_toNat_eq; simp only [lane_toNat, lanesOfBytes_toNat]; omega)

theorem byte_wordOfBytes (b0 b1 b2 b3 : Byte) :
    byte (wordOfBytes b0 b1 b2 b3) 0 = b0 ∧ byte (wordOfBytes b0 b1 b2 b3) 1 = b1 ∧
    byte (wordOfBytes b0 b1 b2 b3) 2 = b2 ∧ byte (wordOfBytes b0 b1 b2 b3) 3 = b3 := by
  refine ⟨?_, ?_, ?_, ?_⟩ <;>
    (apply BitVec.eq_of_toNat_eq; simp only [byte_toNat, wordOfBytes_toNat]; omega)

/-- A lane value is its five lanes. -/
theorem lanes_ext {l m : Lanes} (h : ∀ i < 5, lane l i = lane m i) : l = m := by
  have h' := fun i hi => congrArg BitVec.toNat (h i hi)
  simp only [lane_toNat] at h'
  have := h' 0 (by omega); have := h' 1 (by omega); have := h' 2 (by omega); have := h' 3 (by omega); have := h' 4 (by omega)
  apply BitVec.eq_of_toNat_eq; omega

/-- A word is its four bytes. -/
theorem word_ext {w x : Word} (h : ∀ j < 4, byte w j = byte x j) : w = x := by
  have h' := fun i hi => congrArg BitVec.toNat (h i hi)
  simp only [byte_toNat] at h'
  have := h' 0 (by omega); have := h' 1 (by omega); have := h' 2 (by omega); have := h' 3 (by omega)
  apply BitVec.eq_of_toNat_eq; omega

/-- Packed values lead, and the lanes after them are 0x00. -/
theorem lane_packLanes (bs : List Byte) {i : Nat} (hi : i < 5) : lane (packLanes bs) i = bs.getD i 0 := by
  obtain ⟨h0, h1, h2, h3, h4⟩ := lane_lanesOfBytes (bs.getD 0 0) (bs.getD 1 0) (bs.getD 2 0) (bs.getD 3 0) (bs.getD 4 0)
  obtain rfl | rfl | rfl | rfl | rfl : i = 0 ∨ i = 1 ∨ i = 2 ∨ i = 3 ∨ i = 4 := by omega
  all_goals assumption

/-- `keepbytes` by its definition in R11's words: bytes `j >= n` are replaced by 0x00. -/
theorem byte_keepbytes (w : Word) (n : Nat) {j : Nat} (hj : j < 4) : byte (keepbytes w n) j = if j < n then byte w j else 0 := by
  have key : ∀ m, byte (w &&& m) j = byte w j &&& byte m j := fun m => by simp [byte, BitVec.extractLsb'_and]
  rw [keepbytes, key]
  have : byte (keepMask n) j = if j < n then 0xFF else 0 := by
    match n with
    | 0 | 1 | 2 | 3 => interval_cases j <;> decide
    | n + 4 => rw [if_pos (by omega)]; show byte 0xFFFFFFFF j = _; interval_cases j <;> decide
  rw [this]; split
  · exact BitVec.and_allOnes
  · exact BitVec.and_zero

/-- `keepbytes` as a number: the low bytes are cleared. -/
theorem keepbytes_toNat (w : Word) {n : Nat} (hn : n ≤ 4) :
    (keepbytes w n).toNat = w.toNat / 256 ^ (4 - n) * 256 ^ (4 - n) := by
  have h := fun j (hj : j < 4) => congrArg BitVec.toNat (byte_keepbytes w n hj)
  simp only [apply_ite BitVec.toNat, byte_toNat] at h
  have h0 := h 0 (by omega); have h1 := h 1 (by omega); have h2 := h 2 (by omega); have h3 := h 3 (by omega)
  interval_cases n <;> simp at h0 h1 h2 h3 ⊢ <;> omega

end Sys2Proof.Machine
end

