-- ==== Sys2Proof/Laws/State.lean ====
section
/-! SUPPORT. One lemma per field per update of State: what each update writes and what it leaves. -/

namespace Sys2Proof.Machine

@[simp] theorem State.answer_rspValid (s : State) (r : Response) : (s.answer r).rspValid = true := rfl
@[simp] theorem State.answer_status (s : State) (r : Response) : (s.answer r).status = r.status := rfl
@[simp] theorem State.answer_count (s : State) (r : Response) : (s.answer r).count = r.count := rfl
@[simp] theorem State.answer_word (s : State) (r : Response) : (s.answer r).word = r.word := rfl
@[simp] theorem State.answer_lanes (s : State) (r : Response) : (s.answer r).lanes = r.lanes := rfl
@[simp] theorem State.answer_alphabet (s : State) (r : Response) : (s.answer r).alphabet = s.alphabet := rfl
@[simp] theorem State.answer_ports (s : State) (r : Response) : (s.answer r).ports = s.ports := rfl
@[simp] theorem State.answer_schedule (s : State) (r : Response) : (s.answer r).schedule = s.schedule := rfl

@[simp] theorem State.cleared_rspValid (s : State) : (s.cleared).rspValid = false := rfl
@[simp] theorem State.cleared_status (s : State) : (s.cleared).status = 0 := rfl
@[simp] theorem State.cleared_count (s : State) : (s.cleared).count = 0 := rfl
@[simp] theorem State.cleared_word (s : State) : (s.cleared).word = 0 := rfl
@[simp] theorem State.cleared_lanes (s : State) : (s.cleared).lanes = 0 := rfl
@[simp] theorem State.cleared_alphabet (s : State) : (s.cleared).alphabet = s.alphabet := rfl
@[simp] theorem State.cleared_ports (s : State) : (s.cleared).ports = s.ports := rfl
@[simp] theorem State.cleared_schedule (s : State) : (s.cleared).schedule = s.schedule := rfl

@[simp] theorem State.idled_rspValid (s : State) : (s.idled).rspValid = false := rfl
@[simp] theorem State.idled_status (s : State) : (s.idled).status = s.status := rfl
@[simp] theorem State.idled_count (s : State) : (s.idled).count = s.count := rfl
@[simp] theorem State.idled_word (s : State) : (s.idled).word = s.word := rfl
@[simp] theorem State.idled_lanes (s : State) : (s.idled).lanes = s.lanes := rfl
@[simp] theorem State.idled_alphabet (s : State) : (s.idled).alphabet = s.alphabet := rfl
@[simp] theorem State.idled_ports (s : State) : (s.idled).ports = s.ports := rfl
@[simp] theorem State.idled_schedule (s : State) : (s.idled).schedule = s.schedule := rfl

@[simp] theorem State.advance_rspValid (s : State) : (s.advance).rspValid = s.rspValid := rfl
@[simp] theorem State.advance_status (s : State) : (s.advance).status = s.status := rfl
@[simp] theorem State.advance_count (s : State) : (s.advance).count = s.count := rfl
@[simp] theorem State.advance_word (s : State) : (s.advance).word = s.word := rfl
@[simp] theorem State.advance_lanes (s : State) : (s.advance).lanes = s.lanes := rfl
@[simp] theorem State.advance_alphabet (s : State) : (s.advance).alphabet = s.alphabet := rfl
@[simp] theorem State.advance_ports (s : State) : (s.advance).ports = s.schedule.headD Ports.idle := rfl
@[simp] theorem State.advance_schedule (s : State) : (s.advance).schedule = s.schedule.tail := rfl

@[simp] theorem State.present_rspValid (s : State) (p : Ports) : (s.present p).rspValid = s.rspValid := rfl
@[simp] theorem State.present_status (s : State) (p : Ports) : (s.present p).status = s.status := rfl
@[simp] theorem State.present_count (s : State) (p : Ports) : (s.present p).count = s.count := rfl
@[simp] theorem State.present_word (s : State) (p : Ports) : (s.present p).word = s.word := rfl
@[simp] theorem State.present_lanes (s : State) (p : Ports) : (s.present p).lanes = s.lanes := rfl
@[simp] theorem State.present_alphabet (s : State) (p : Ports) : (s.present p).alphabet = s.alphabet := rfl
@[simp] theorem State.present_ports (s : State) (p : Ports) : (s.present p).ports = p := rfl
@[simp] theorem State.present_schedule (s : State) (p : Ports) : (s.present p).schedule = s.ports :: s.schedule := rfl

@[simp] theorem State.withFetchWord_rspValid (s : State) (nbits w : Nat) : (s.withFetchWord nbits w).rspValid = s.rspValid := rfl
@[simp] theorem State.withFetchWord_status (s : State) (nbits w : Nat) : (s.withFetchWord nbits w).status = s.status := rfl
@[simp] theorem State.withFetchWord_count (s : State) (nbits w : Nat) : (s.withFetchWord nbits w).count = s.count := rfl
@[simp] theorem State.withFetchWord_word (s : State) (nbits w : Nat) : (s.withFetchWord nbits w).word = s.word := rfl
@[simp] theorem State.withFetchWord_lanes (s : State) (nbits w : Nat) : (s.withFetchWord nbits w).lanes = s.lanes := rfl
@[simp] theorem State.withFetchWord_alphabet (s : State) (nbits w : Nat) : (s.withFetchWord nbits w).alphabet = s.alphabet := rfl
@[simp] theorem State.withFetchWord_ports (s : State) (nbits w : Nat) : (s.withFetchWord nbits w).ports = s.ports.withCommand (BitVec.ofNat 8 (w % 2 ^ nbits)) := rfl
@[simp] theorem State.withFetchWord_schedule (s : State) (nbits w : Nat) : (s.withFetchWord nbits w).schedule = s.schedule := rfl

/-! A command presented ahead of the plan leaves the plan as it was; the register writes do not see the plan. -/

@[simp] theorem State.advance_answer (s : State) (r : Response) : (s.answer r).advance = s.advance.answer r := rfl
@[simp] theorem State.advance_cleared (s : State) : s.cleared.advance = s.advance.cleared := rfl
@[simp] theorem State.advance_idled (s : State) : s.idled.advance = s.advance.idled := rfl
@[simp] theorem State.advance_present (s : State) (p : Ports) : (s.present p).advance = s := rfl
@[simp] theorem State.answer_answer (s : State) (r r' : Response) : (s.answer r).answer r' = s.answer r' := rfl

@[simp] theorem Ports.command_rst (i : Instr) (w : Word) (l : Lanes) : (Ports.command i w l).rst = false := rfl
@[simp] theorem Ports.command_cmdValid (i : Instr) (w : Word) (l : Lanes) : (Ports.command i w l).cmdValid = true := rfl
@[simp] theorem Ports.command_cmd (i : Instr) (w : Word) (l : Lanes) : (Ports.command i w l).cmd = encode i := rfl
@[simp] theorem Ports.command_inWord (i : Instr) (w : Word) (l : Lanes) : (Ports.command i w l).inWord = w := rfl
@[simp] theorem Ports.command_inLanes (i : Instr) (w : Word) (l : Lanes) : (Ports.command i w l).inLanes = l := rfl

end Sys2Proof.Machine
end

