-- ==== Sys2Proof/Laws/Ops.lean ====
section
/-! SUPPORT. What each shared operation can do, said once: completing and raising (R206), accepting a command, one edge, one step. -/

namespace Sys2Proof.Machine

/-! ### Completing (R206) -/

@[simp] theorem complete_ok (n : Nat) (w : Word) (l : Lanes) :
    complete .ok n w l = { status := 0, count := BitVec.ofNat 3 n, word := w, lanes := l } := rfl

theorem complete_error {e : Status} (h : e ≠ .ok) (n : Nat) (w : Word) (l : Lanes) : complete e n w l = raise e := by
  simp [raise, complete, h]

@[simp] theorem raise_eq (e : Status) : raise e = { status := e.code, count := 0, word := 0, lanes := 0 } := by
  cases e <;> rfl

/-! ### Outcomes in sequence -/

@[simp] theorem andThen_next {σ τ : Type} (s : σ) (k : σ → Host.Outcome τ Fault Refusal) : andThen (.next s) k = k s := rfl
@[simp] theorem andThen_refused {σ τ : Type} (r : Refusal) (k : σ → Host.Outcome τ Fault Refusal) :
    andThen (.refused r) k = .refused r := rfl

theorem andThen_eq_next {σ τ : Type} {o : Host.Outcome σ Fault Refusal} {k : σ → Host.Outcome τ Fault Refusal} {t : τ} :
    andThen o k = .next t ↔ ∃ s, o = .next s ∧ k s = .next t := by
  cases o <;> simp [andThen]

/-! ### A configuration is legal or refused (R102) -/

theorem configured_of_legal {s : State} (h : legalAlphabet s.alphabet = true) (o : Host.Outcome State Fault Refusal) :
    configured s o = o := if_pos h

theorem configured_of_illegal {s : State} (h : legalAlphabet s.alphabet = false) (o : Host.Outcome State Fault Refusal) :
    configured s o = .refused .illegalAlphabet := if_neg (by simp [h])

theorem configured_next_eq_next {s t u : State} :
    configured s (.next t) = .next u ↔ legalAlphabet s.alphabet = true ∧ t = u := by
  cases h : legalAlphabet s.alphabet <;> simp [configured, h]

/-! ### Every command has one form -/

/-- The response of a legal command. -/
def legalResponse (i : Instr) (s : State) : Response :=
  match i with
  | .enc n => encResponse n s
  | .dec n => decResponse n s
  | .encd n => encdResponse n s
  | .decd n => decdResponse n s
  | .s2c n => s2cResponse n s
  | .c2s n => c2sResponse n s

/-- The response of any command: ILLEGAL_COMMAND for a count out of range (R204). -/
def responseOf (i : Instr) (s : State) : Response :=
  if i.WellFormed then legalResponse i s else raise .illegalCommand

theorem responseOf_legal {i : Instr} (h : i.WellFormed) (s : State) : responseOf i s = legalResponse i s := if_pos h

theorem responseOf_illegal {i : Instr} (h : ¬ i.WellFormed) (s : State) : responseOf i s = raise .illegalCommand := if_neg h

/-- `exec` answers the registers with the command's response, in a legal configuration, and does nothing else. -/
theorem exec_eq (i : Instr) (s : State) : exec i s = configured s (.next (s.answer (responseOf i s))) := by
  cases i <;> rfl

theorem exec_of_legal {s : State} (h : legalAlphabet s.alphabet = true) (i : Instr) :
    exec i s = .next (s.answer (responseOf i s)) := by
  rw [exec_eq, configured_of_legal h]

/-- Everything `exec` can do with a next state. -/
theorem exec_eq_next {i : Instr} {s t : State} :
    exec i s = .next t ↔ legalAlphabet s.alphabet = true ∧ t = s.answer (responseOf i s) := by
  rw [exec_eq, configured_next_eq_next, eq_comm (a := t)]

theorem illegalCommand_of_legal {s : State} (h : legalAlphabet s.alphabet = true) :
    illegalCommand s = .next (s.answer (raise .illegalCommand)) := configured_of_legal h _

/-! ### One edge and one step -/

/-- The registers after an edge (R231), for a legal configuration. -/
def edgeState (s : State) : State :=
  if s.ports.rst then s.cleared
  else if s.ports.cmdValid then
    s.answer (match decodeCmd s.ports.cmd with | .ok i => responseOf i s | .error _ => raise .illegalCommand)
  else s.idled

theorem clockEdge_eq (s : State) : clockEdge s = configured s (.next (edgeState s)) := by
  unfold clockEdge edgeState acceptEdge
  split
  · rfl
  · split
    · cases decodeCmd s.ports.cmd
      · rfl
      · exact exec_eq _ _
    · rfl

theorem step_of_legal {s : State} (h : legalAlphabet s.alphabet = true) : step s = .next (edgeState s).advance := by
  rw [step, clockEdge_eq, configured_of_legal h, andThen_next]

theorem step_of_illegal {s : State} (h : legalAlphabet s.alphabet = false) : step s = .refused .illegalAlphabet := by
  rw [step, clockEdge_eq, configured_of_illegal h, andThen_refused]

/-- Everything `step` can do with a next state. -/
theorem step_eq_next {s t : State} :
    step s = .next t ↔ legalAlphabet s.alphabet = true ∧ t = (edgeState s).advance := by
  rw [step, clockEdge_eq, andThen_eq_next]
  simp only [configured_next_eq_next, Host.Outcome.next.injEq]
  constructor
  · rintro ⟨u, ⟨h, rfl⟩, rfl⟩; exact ⟨h, rfl⟩
  · rintro ⟨h, rfl⟩; exact ⟨_, ⟨h, rfl⟩, rfl⟩

@[simp] theorem edgeState_alphabet (s : State) : (edgeState s).alphabet = s.alphabet := by
  unfold edgeState; split <;> (try split) <;> rfl

@[simp] theorem edgeState_schedule (s : State) : (edgeState s).schedule = s.schedule := by
  unfold edgeState; split <;> (try split) <;> rfl

theorem edgeState_reset {s : State} (h : s.ports.rst = true) : edgeState s = s.cleared := by simp [edgeState, h]

theorem edgeState_idle {s : State} (h : s.ports.rst = false) (hv : s.ports.cmdValid = false) : edgeState s = s.idled := by
  simp [edgeState, h, hv]

theorem edgeState_command {s : State} {i : Instr} (h : s.ports.rst = false) (hv : s.ports.cmdValid = true)
    (hd : decodeCmd s.ports.cmd = .ok i) : edgeState s = s.answer (responseOf i s) := by
  simp [edgeState, h, hv, hd]

end Sys2Proof.Machine
end

