-- ==== Sys2Proof/Laws/Codec.lean ====
section
/-! SUPPORT. The encoder, the decoder and the host's `issue`, each by one lemma. -/

namespace Sys2Proof.Machine

@[simp] theorem length_leadingLanes (l : Lanes) (n : Nat) : (leadingLanes l n).length = n := by simp [leadingLanes]

@[simp] theorem length_leadingBytes (w : Word) (n : Nat) : (leadingBytes w n).length = n := by simp [leadingBytes]

theorem getElem?_leadingLanes (l : Lanes) {n i : Nat} (h : i < n) : (leadingLanes l n)[i]? = some (lane l i) := by
  simp [leadingLanes, h]

/-- The lanes of an answer that is a list of digits: zero-extended, and 0x00 after the last (D9, D20). -/
theorem lane_digitLanes (ds : List Nat) {i : Nat} (hi : i < 5) :
    lane (digitLanes ds) i = if i < ds.length then BitVec.ofNat 8 (ds.getD i 0) else 0 := by
  rw [digitLanes, lane_packLanes _ hi]
  split <;> simp_all [List.getD]

/-- The lanes of an answer that is a list of characters, and 0x00 after the last (D9). -/
theorem lane_charLanes (a : Alphabet) (ds : List Nat) {i : Nat} (hi : i < 5) :
    lane (charLanes a ds) i = if i < ds.length then sym2char a (ds.getD i 0) else 0 := by
  rw [charLanes, lane_packLanes _ hi]
  split <;> simp_all [List.getD]

@[simp] theorem length_encodeDigits (n : Count) (s : State) (h : n.val ≤ 4) :
    (encodeDigits n s).length = encodedLength n.val := by
  simp only [encodeDigits, enc5, encodedLength, List.length_take, List.length_map, List.length_range]
  split
  · simp_all
  · exact Nat.min_eq_left (by simp only [Config.groupDigits]; omega)

/-- The digit that ENC and ENCD emit in place `i` (R120, R122). -/
theorem getD_encodeDigits {n : Count} {s : State} {i : Nat} (h : n.val ≤ 4) (hi : i < encodedLength n.val) :
    (encodeDigits n s).getD i 0 = encDigit (groupWord n s).toNat i := by
  have : i < 5 := by unfold encodedLength at hi; split at hi <;> omega
  simp [encodeDigits, enc5, List.getD, hi, this]

/-- The word the host presents for a full or short raw group holds the group's bytes first (R171). -/
theorem byte_groupToWord (fill : Word) (g : List Byte) {j : Nat} (hj : j < 4) :
    byte (groupToWord fill g) j = g.getD j (byte fill j) := by
  obtain ⟨h0, h1, h2, h3⟩ := byte_wordOfBytes (g.getD 0 (byte fill 0)) (g.getD 1 (byte fill 1)) (g.getD 2 (byte fill 2))
    (g.getD 3 (byte fill 3))
  obtain rfl | rfl | rfl | rfl : j = 0 ∨ j = 1 ∨ j = 2 ∨ j = 3 := by omega
  all_goals assumption

/-- A command that the host issues answers its response and leaves what the host had planned as it was (R170). -/
theorem issue_of_legal {s : State} {i : Instr} (h : legalAlphabet s.alphabet = true) (hd : decodeCmd (encode i) = .ok i)
    (w : Word) (l : Lanes) : issue i w l s = .next (s.answer (responseOf i (s.present (Ports.command i w l)))) := by
  have he := edgeState_command (s := s.present (Ports.command i w l)) (i := i)
    (by simp only [State.present_ports, Ports.command_rst]) (by simp only [State.present_ports, Ports.command_cmdValid])
    (by simpa only [State.present_ports, Ports.command_cmd] using hd)
  rw [issue, step_of_legal (by simpa only [State.present_alphabet] using h), he, State.advance_answer,
    State.advance_present]

end Sys2Proof.Machine
end

