-- ==== Sys2Proof/Laws/Instances.lean ====
section
/-! SUPPORT. A block of a system as a machine of its own and back, and what one step of a system can do, said once (R212). -/

namespace Sys2Proof.Machine

@[simp] theorem Block.toState_rspValid (a : Alphabet) (b : Block) : (b.toState a).rspValid = b.rspValid := rfl
@[simp] theorem Block.toState_status (a : Alphabet) (b : Block) : (b.toState a).status = b.status := rfl
@[simp] theorem Block.toState_count (a : Alphabet) (b : Block) : (b.toState a).count = b.count := rfl
@[simp] theorem Block.toState_word (a : Alphabet) (b : Block) : (b.toState a).word = b.word := rfl
@[simp] theorem Block.toState_lanes (a : Alphabet) (b : Block) : (b.toState a).lanes = b.lanes := rfl
@[simp] theorem Block.toState_alphabet (a : Alphabet) (b : Block) : (b.toState a).alphabet = a := rfl
@[simp] theorem Block.toState_ports (a : Alphabet) (b : Block) : (b.toState a).ports = b.ports := rfl
@[simp] theorem Block.toState_schedule (a : Alphabet) (b : Block) : (b.toState a).schedule = b.schedule := rfl

@[simp] theorem Block.toBlock_toState (a : Alphabet) (b : Block) : (b.toState a).toBlock = b := rfl

/-- A machine is its block with its table. -/
@[simp] theorem State.toState_toBlock (s : State) : s.toBlock.toState s.alphabet = s := rfl

/-- Every unit of a system has the system's table. -/
theorem System.unit_alphabet {y : System} {k : Nat} {s : State} (h : y.unit k = some s) : s.alphabet = y.alphabet := by
  obtain ⟨b, -, rfl⟩ := Option.map_eq_some_iff.1 h
  rfl

/-- The units after block `k` has been replaced by that of a machine with the same table. -/
theorem System.unit_set (y : System) (k j : Nat) {s t : State} (hs : y.unit k = some s) (ht : t.alphabet = y.alphabet) :
    System.unit { y with blocks := y.blocks.set k t.toBlock } j = if k = j then some t else y.unit j := by
  obtain ⟨b, hb, -⟩ := Option.map_eq_some_iff.1 hs
  have hk := (List.getElem?_eq_some_iff.1 hb).1
  simp only [System.unit, List.getElem?_set, hk, if_true]
  split
  · rw [Option.map_some, ← ht, State.toState_toBlock]
  · rfl

/-- A step of a block that the system has, with a legal table. -/
theorem stepUnit_of_legal {y : System} {k : Nat} {s : State} (hs : y.unit k = some s) (h : legalAlphabet y.alphabet = true) :
    stepUnit k y = .next { y with blocks := y.blocks.set k (edgeState s).advance.toBlock } := by
  rw [stepUnit, hs]
  simp only [step_of_legal ((System.unit_alphabet hs).symm ▸ h), andThen_next]

/-- A step of a block that the system has, with an illegal table. -/
theorem stepUnit_of_illegal {y : System} {k : Nat} {s : State} (hs : y.unit k = some s)
    (h : legalAlphabet y.alphabet = false) : stepUnit k y = .refused .illegalAlphabet := by
  rw [stepUnit, hs]
  simp only [step_of_illegal ((System.unit_alphabet hs).symm ▸ h), andThen_refused]

/-- A step of a block that the system has not. -/
theorem stepUnit_of_none {y : System} {k : Nat} (h : y.unit k = none) : stepUnit k y = .next y := by
  rw [stepUnit, h]

end Sys2Proof.Machine
end

