-- ==== Sys2Proof/Laws/PerInstr.lean ====
section
/-! SUPPORT. The one family of per-instruction lemmas: the three fields of a command's word (R70). -/

namespace Sys2Proof.Laws.EncodedFields

/-- The word of `i` has RSV = 00, `i`'s count in `cmd[5:3]` and `i`'s opcode in `cmd[2:0]`, whatever the count is. -/
def Statement (i : Instr) : Prop :=
  rsvField (encode i) = 0#2 ∧ nField (encode i) = i.count ∧ opField (encode i) = i.opcode

theorem enc (n : Count) : Statement (.enc n) := by revert n; unfold Statement; decide
theorem dec (n : Count) : Statement (.dec n) := by revert n; unfold Statement; decide
theorem encd (n : Count) : Statement (.encd n) := by revert n; unfold Statement; decide
theorem decd (n : Count) : Statement (.decd n) := by revert n; unfold Statement; decide
theorem s2c (n : Count) : Statement (.s2c n) := by revert n; unfold Statement; decide
theorem c2s (n : Count) : Statement (.c2s n) := by revert n; unfold Statement; decide

end Sys2Proof.Laws.EncodedFields
end

