-- ==== Sys2Proof/Tests/Slice0.lean ====
section
/-! SUPPORT. Tests of the model against the spec (the source of each expected value is named; none is the model's own answer), and
for every obligation with hypotheses a witness that meets them, clause by clause. -/

namespace Sys2Proof.Machine

/- One theorem at a time: many kernel evaluations at once would need a thread, and a stack, each. -/
set_option Elab.async false

/-! ### The command word: words written out from R70 and R74, `rr nnn ooo` -/

theorem test_decode_enc : decodeCmd 0b00_100_000#8 = .ok (.enc 4) := by decide
theorem test_decode_dec : decodeCmd 0b00_101_001#8 = .ok (.dec 5) := by decide
theorem test_decode_encd : decodeCmd 0b00_011_010#8 = .ok (.encd 3) := by decide
theorem test_decode_decd : decodeCmd 0b00_001_011#8 = .ok (.decd 1) := by decide
theorem test_decode_s2c : decodeCmd 0b00_010_100#8 = .ok (.s2c 2) := by decide
theorem test_decode_c2s : decodeCmd 0b00_000_101#8 = .ok (.c2s 0) := by decide

/-- R76, and the vectors L2-ILL-1, 2, 7, 9, 10 and 12: each reason for which a word is no command. -/
theorem test_decode_rejects_by_name :
    decodeCmd 0b00_000_110#8 = .error .reservedOpcode ∧ decodeCmd 0b00_000_111#8 = .error .reservedOpcode ∧
    decodeCmd 0b01_100_000#8 = .error .reservedBits ∧ decodeCmd 0b10_000_000#8 = .error .reservedBits ∧
    decodeCmd 0b00_101_010#8 = .error .countOutOfRange ∧ decodeCmd 0b00_110_011#8 = .error .countOutOfRange ∧
    decodeCmd 0b00_111_101#8 = .error .countOutOfRange := by decide

/-- A word of the opcode table, and a number that is no 8-bit word. -/
theorem test_table_words : decodeTableWord 8 0x2B = some (.decd 5) ∧ decodeTableWord 8 0x40 = none ∧
    decodeTableWord 8 0x120 = none := by decide

/-- R75: a count above an opcode's range is not well formed, the greatest count is. -/
theorem test_wellFormed_refuses_enc : ¬ (Instr.enc 5).WellFormed ∧ (Instr.enc 4).WellFormed := by decide
theorem test_wellFormed_refuses_dec : ¬ (Instr.dec 6).WellFormed ∧ (Instr.dec 5).WellFormed := by decide
theorem test_wellFormed_refuses_encd : ¬ (Instr.encd 5).WellFormed ∧ (Instr.encd 4).WellFormed := by decide
theorem test_wellFormed_refuses_decd : ¬ (Instr.decd 6).WellFormed ∧ (Instr.decd 5).WellFormed := by decide
theorem test_wellFormed_refuses_s2c : ¬ (Instr.s2c 6).WellFormed ∧ (Instr.s2c 5).WellFormed := by decide
theorem test_wellFormed_refuses_c2s : ¬ (Instr.c2s 7).WellFormed ∧ (Instr.c2s 5).WellFormed := by decide

/-! ### One step -/

/-- The state after reset, with the command `i` and its operands on the ports. -/
def sample (i : Instr) (w : Word) (l : Lanes) : State := { State.reset with ports := Ports.command i w l }

/-- The state after reset, with a raw command byte on the ports. -/
def rawSample (c : Byte) : State := { State.reset with ports := Ports.idle.withCommand c }

/-- What the outputs show after one step. -/
def shown (s : State) : Option OutPorts :=
  match step s with
  | .next t => some t.outputs
  | .fault _ => none
  | .refused _ => none

/-- L2-ENC-5: bytes 2 and 3 are ignored. -/
theorem test_enc_partial : shown (sample (.enc 2) 0x6973FFFF 0) = some ⟨true, 0, 3, 0, 0x426C610000⟩ := by decide +kernel
/-- L2-ENC-15: the carry into digit 3. -/
theorem test_enc_carry : shown (sample (.enc 4) 0x00000055 0) = some ⟨true, 0, 5, 0, 0x2121212221⟩ := by decide +kernel
/-- L2-ENC-21. -/
theorem test_encd_partial : shown (sample (.encd 2) 0x12345678 0) = some ⟨true, 0, 3, 0, 0x0548180000⟩ := by decide +kernel
/-- L2-ENC-22: the empty group. -/
theorem test_encd_empty : shown (sample (.encd 0) 0x12345678 0) = some ⟨true, 0, 0, 0, 0⟩ := by decide +kernel
/-- L2-DEC-9: a non-canonical group is accepted. -/
theorem test_dec_non_canonical : shown (sample (.dec 2) 0 0x356D000000) = some ⟨true, 0, 1, 0x41000000, 0⟩ := by decide +kernel
/-- L2-DEC-21: an invalid character beats an overflow. -/
theorem test_dec_priority : shown (sample (.dec 5) 0 0x7575757520) = some ⟨true, 1, 0, 0, 0⟩ := by decide +kernel
/-- L2-DEC-26: 2^32 overflows, it does not wrap. -/
theorem test_decd_overflow : shown (sample (.decd 5) 0 0x5217360C01) = some ⟨true, 3, 0, 0, 0⟩ := by decide +kernel
/-- L2-DEC-28: a partial group. -/
theorem test_decd_partial : shown (sample (.decd 3) 0 0x214B400000) = some ⟨true, 0, 2, 0x69730000, 0⟩ := by decide +kernel
/-- L2-LUT-5: symbol 84 is legal, and lanes 2 to 4 are ignored. -/
theorem test_s2c_ignores_lanes : shown (sample (.s2c 2) 0 0x5400FFFFFF) = some ⟨true, 0, 2, 0, 0x7521000000⟩ := by decide +kernel
/-- L2-LUT-4: lane 2 is out of range. -/
theorem test_s2c_out_of_range : shown (sample (.s2c 3) 0 0x0000C80000) = some ⟨true, 1, 0, 0, 0⟩ := by decide +kernel
/-- L2-LUT-7: the lowest and the highest character. -/
theorem test_c2s_ends : shown (sample (.c2s 2) 0 0x2175000000) = some ⟨true, 0, 2, 0, 0x0054000000⟩ := by decide +kernel
/-- L2-LUT-14: DEL in lane 2. -/
theorem test_c2s_out_of_alphabet : shown (sample (.c2s 3) 0 0x21217F0000) = some ⟨true, 1, 0, 0, 0⟩ := by decide +kernel
/-- L2-ILL-7: RSV = 01. -/
theorem test_illegal_word : shown (rawSample 0x60) = some ⟨true, 4, 0, 0, 0⟩ := by decide +kernel

/-- L2-STEP-2: an idle edge drops RSP_VALID and holds the rest. -/
theorem test_idle_edge :
    shown { State.reset with rspValid := true, count := 5, lanes := 0x396A716F5E } =
      some ⟨false, 0, 5, 0, 0x396A716F5E⟩ := by decide +kernel

/-- L2-STEP-3: reset wins over a command. -/
theorem test_reset_drops_command :
    shown { State.reset with ports := { rst := true, cmdValid := true, cmd := 0x20, inWord := 0xFFFFFFFF, inLanes := 0 } } =
      some ⟨false, 0, 0, 0, 0⟩ := by decide +kernel

/-- L2-STEP-4: an error is not sticky. -/
theorem test_error_not_sticky : shown { sample (.enc 0) 0 0 with status := 3 } = some ⟨true, 0, 0, 0, 0⟩ := by decide +kernel

/-- R102: two tables that break the rule, one with a repeated entry, one with a space. -/
theorem test_illegal_alphabets :
    legalAlphabet (List.replicate 85 0x21) = false ∧ legalAlphabet (0x20 :: defaultAlphabet.tail) = false ∧
    legalAlphabet (0x7E :: defaultAlphabet.tail) = true := by decide +kernel

/-- What a host procedure gives back. -/
def given {σ α : Type} : Host.Outcome (σ × α) Fault Refusal → Option α
  | .next r => some r.2
  | .fault _ => none
  | .refused _ => none

theorem given_eq_some {σ α : Type} {o : Host.Outcome (σ × α) Fault Refusal} {x : α} (h : given o = some x) :
    ∃ t, o = .next (t, x) := by
  cases o with
  | next r => cases h; exact ⟨r.1, rfl⟩
  | fault r => cases h
  | refused r => cases h

/-- L3-BUF-1. -/
theorem test_encode_buffer : given (encodeBuffer 0xFFFFFFFF [0x4D, 0x61, 0x6E, 0x20, 0x69, 0x73] State.reset) =
    some [0x39, 0x6A, 0x71, 0x6F, 0x5E, 0x42, 0x6C, 0x61] := by decide +kernel

/-- L3-BUF-6: the second group's INVALID_CHARACTER is reported, not the first's GROUP_OVERFLOW. -/
theorem test_decode_buffer_worst :
    given (decodeBuffer [0x75, 0x75, 0x75, 0x75, 0x75, 0x21, 0x21, 0x21, 0x20, 0x21] State.reset) =
      some (.failure .invalidCharacter) := by decide +kernel

/-- R79: the line `DECD.2 [82,22]`, later lanes 0x00, and the raw byte of `CMD 0x06`. -/
theorem test_line_ports : (Line.values (.decd 2) [82, 22]).ports = ⟨false, true, 0x13, 0, 0x5216000000⟩ ∧
    (Line.cmd 0x06).ports = ⟨false, true, 0x06, 0, 0⟩ := by decide

/-! ### Witnesses: concrete values that meet the hypotheses of the obligations, each clause at a boundary -/

theorem reset_legal : legalAlphabet State.reset.alphabet = true := by decide +kernel
theorem sample_legal (i : Instr) (w : Word) (l : Lanes) : legalAlphabet (sample i w l).alphabet = true := reset_legal
theorem rawSample_legal (c : Byte) : legalAlphabet (rawSample c).alphabet = true := reset_legal

theorem witness_DecodeAndEncodeAgree :
    (Instr.enc 4).WellFormed ∧ (Instr.dec 5).WellFormed ∧ decodeCmd 0x22 = .ok (.encd 4) ∧
    ¬ (Instr.encd 5).WellFormed ∧ ¬ (Instr.c2s 6).WellFormed := by decide

/-- Each of R76's four cases, and a legal word next to two of them. -/
theorem witness_IllegalCommandsCompleteWithIllegalCommand :
    legalAlphabet (rawSample 0x40).alphabet = true ∧ (rawSample 0x40).ports.rst = false ∧
    (rawSample 0x40).ports.cmdValid = true ∧
    (rawSample 0x40).ports.cmd.toNat / 64 ≠ 0 ∧ (rawSample 0x06).ports.cmd.toNat % 8 = 6 ∧
    (rawSample 0x3F).ports.cmd.toNat % 8 = 7 ∧
    ((rawSample 0x28).ports.cmd.toNat % 8 = 0 ∧ 4 < (rawSample 0x28).ports.cmd.toNat / 8 % 8) ∧
    ((rawSample 0x31).ports.cmd.toNat % 8 = 1 ∧ 5 < (rawSample 0x31).ports.cmd.toNat / 8 % 8) ∧
    ((rawSample 0x20).ports.cmd.toNat / 64 = 0 ∧ (rawSample 0x20).ports.cmd.toNat % 8 = 0 ∧
      ¬ 4 < (rawSample 0x20).ports.cmd.toNat / 8 % 8) ∧
    ((rawSample 0x29).ports.cmd.toNat / 64 = 0 ∧ (rawSample 0x29).ports.cmd.toNat % 8 = 1 ∧
      ¬ 5 < (rawSample 0x29).ports.cmd.toNat / 8 % 8) := ⟨rawSample_legal _, by decide⟩

theorem witness_StepRunsTheDecodedCommand :
    (sample (.dec 5) 0 0x396A716F5E).ports.rst = false ∧ (sample (.dec 5) 0 0x396A716F5E).ports.cmdValid = true ∧
    decodeCmd (sample (.dec 5) 0 0x396A716F5E).ports.cmd = .ok (.dec 5) ∧ decodeTableWord 8 0x29 = some (.dec 5) := by decide

/-- Reset with a command, a legal command, a word that is no command, and an idle edge. -/
theorem witness_EdgeFollowsTheStepRule :
    legalAlphabet State.reset.alphabet = true ∧
    ({ sample (.enc 4) 0 0 with ports := { Ports.command (.enc 4) 0 0 with rst := true } } : State).ports.rst = true ∧
    ((sample (.enc 4) 0 0).ports.rst = false ∧ (sample (.enc 4) 0 0).ports.cmdValid = true ∧
      decodeCmd (sample (.enc 4) 0 0).ports.cmd = .ok (.enc 4)) ∧
    ((rawSample 0x28).ports.rst = false ∧ (rawSample 0x28).ports.cmdValid = true ∧
      decodeCmd (rawSample 0x28).ports.cmd = .error .countOutOfRange) ∧
    (State.reset.ports.rst = false ∧ State.reset.ports.cmdValid = false) := ⟨reset_legal, by decide⟩

theorem witness_LegalConfigurationNeverStops : legalAlphabet (rawSample 0xFF).alphabet = true := rawSample_legal _

/-- Two reset edges, the second with a command presented. -/
def resetTwice : State :=
  { sample (.enc 4) 0xFFFFFFFF 0 with
    ports := { Ports.idle with rst := true }, schedule := [{ Ports.command (.enc 4) 0xFFFFFFFF 0 with rst := true }] }

theorem witness_ResetEdgesClearAllRegisters :
    legalAlphabet resetTwice.alphabet = true ∧ ∀ p ∈ ComingSamples resetTwice (1 + 1), p.rst = true := ⟨reset_legal, by decide⟩

/-- A state that holds a response, with idle edges to come. -/
def holding : State := { State.reset with rspValid := true, count := 5, lanes := 0x396A716F5E }

theorem witness_IdleEdgesHoldTheResponse :
    legalAlphabet holding.alphabet = true ∧
    ∀ p ∈ ComingSamples holding (1 + 1), p.rst = false ∧ p.cmdValid = false := ⟨reset_legal, by decide⟩

theorem witness_NoEdgeWritesTheAlphabet : ∃ t, edges 1 resetTwice = .next t :=
  ⟨(edgeState resetTwice).advance, by rw [edges, step_of_legal (by exact reset_legal)]; rfl⟩

/-- A table with a repeated entry is not legal; the default one is. -/
theorem witness_IllegalAlphabetIsRefused :
    ¬ (({ State.reset with alphabet := List.replicate 85 0x21 } : State).alphabet.Nodup) ∧
    State.reset.alphabet.length = 85 ∧ (∀ c ∈ State.reset.alphabet, 0x21 ≤ c.toNat ∧ c.toNat ≤ 0x7E) ∧
    State.reset.alphabet.Nodup := by decide +kernel

theorem witness_EveryEdgeKeepsTheInvariant : Inv (sample (.dec 5) 0 0x7575757575) ∧
    ∃ t, step (sample (.dec 5) 0 0x7575757575) = .next t :=
  ⟨⟨reset_legal, by decide, by decide, by decide, by decide⟩, _, step_of_legal (sample_legal _ _ _)⟩

theorem witness_FirstEdgeDefinesAllRegisters :
    legalAlphabet defaultAlphabet = true ∧ (Ports.command (.dec 5) 0 0x396A716F5E).cmdValid = true ∧
    (Line.reset.ports.rst = true ∧ Line.reset.ports.cmdValid = false) := ⟨reset_legal, by decide⟩

theorem witness_EveryCommandCompletesWithOneWrite :
    legalAlphabet (sample (.enc 5) 0 0).alphabet = true ∧ (rawSample 0xC1).ports.rst = false ∧
    (rawSample 0xC1).ports.cmdValid = true := ⟨reset_legal, by decide⟩

theorem witness_CommandsLeaveAllElseAsItWas :
    (∃ t, exec (.enc 4) (sample (.enc 4) 0xFFFFFFFF 0) = .next t) ∧
    ∃ t, exec (.dec 5) (sample (.dec 5) 0 0x7338572D21) = .next t :=
  ⟨⟨_, exec_of_legal (sample_legal _ _ _) _⟩, _, exec_of_legal (sample_legal _ _ _) _⟩

/-- A command that answers OK, one that answers an error, and an encode command with N = 3. -/
theorem witness_CountFollowsTheTable :
    (∃ t, exec (.dec 5) (sample (.dec 5) 0 0x7338572D21) = .next t ∧ t.status = 0) ∧
    (∃ t, exec (.dec 5) (sample (.dec 5) 0 0x7338572D22) = .next t ∧ t.status ≠ 0) ∧
    (∃ t, exec (.enc 3) (sample (.enc 3) 0 0) = .next t) ∧ (3 : Count).val ≤ 3 :=
  ⟨⟨_, exec_of_legal (sample_legal _ _ _) _, by decide +kernel⟩, ⟨_, exec_of_legal (sample_legal _ _ _) _, by decide +kernel⟩,
    ⟨_, exec_of_legal (sample_legal _ _ _) _⟩, by decide⟩

/-- An idle edge like that of the reset state, with other values on the don't-care ports. -/
def idleOther : State := { State.reset with ports := { Ports.idle with cmd := 0x29, inLanes := 5 } }

/-- Operands that agree where N selects and differ elsewhere, with different register contents. -/
theorem witness_OnlySelectedOperandsMatter :
    legalAlphabet State.reset.alphabet = true ∧ holding.alphabet = State.reset.alphabet ∧
    SameOperand (.enc 2) (Ports.command (.enc 2) 0x69730000 0) (Ports.command (.enc 2) 0x6973FFFF 7) ∧
    SameOperand (.dec 5) (Ports.command (.dec 5) 0 0x396A716F5E) (Ports.command (.dec 5) 9 0x396A716F5E) ∧
    idleOther.alphabet = State.reset.alphabet ∧ idleOther.outputs = State.reset.outputs ∧
    idleOther.ports.rst = State.reset.ports.rst ∧ idleOther.ports.cmdValid = false ∧
    State.reset.ports.cmdValid = false ∧
    decodeCmd (sample (.enc 2) 0x69730000 0).ports.cmd = .ok (.enc 2) ∧
    (∀ i, decodeCmd (rawSample 0x40).ports.cmd ≠ .ok i) ∧ (rawSample 0x40).ports.cmdValid = true ∧
    (rawSample 0x40).ports.rst = false := by
  refine ⟨reset_legal, rfl, ?_, ?_, rfl, rfl, rfl, rfl, rfl, by decide, fun i h => ?_, by decide, by decide⟩
  · unfold SameOperand; decide
  · unfold SameOperand; decide
  · cases h.symm.trans (by decide : decodeCmd (rawSample 0x40).ports.cmd = .error .reservedBits)

theorem witness_EmptyGroupIsLegalForEveryOpcode :
    legalAlphabet (sample (.dec 0) 0 0xFFFFFFFFFF).alphabet = true ∧ (Instr.dec 0).count = 0 := ⟨reset_legal, rfl⟩

/-- The command at the second edge, after a reset at the first. -/
theorem witness_ResponseBelongsToTheCommandOfItsEdge :
    let p := Ports.command (.dec 5) 0 0x396A716F5E
    let s := { State.reset with ports := { Ports.idle with rst := true }, schedule := [p] }
    let u := { holding with ports := p }
    legalAlphabet s.alphabet = true ∧ ComingSamples s (1 + 1) = ComingSamples s 1 ++ [p] ∧ p.rst = false ∧
    p.cmdValid = true ∧ u.alphabet = s.alphabet ∧ u.ports = p ∧ decodeCmd p.cmd = .ok (.dec 5) ∧
    decodeCmd (rawSample 0x06).ports.cmd = .error .reservedOpcode := ⟨reset_legal, by decide, by decide, by decide, rfl, rfl, by decide, by decide⟩

theorem witness_CharToSymInvertsSymToChar : legalAlphabet (0x7E :: defaultAlphabet.tail) = true := by decide +kernel

/-- Five lanes of 84, a lane of 85, a count of 6, and the rule's example. -/
theorem witness_SymToCharCommandMapsTheLanes :
    legalAlphabet State.reset.alphabet = true ∧
    ((5 : Count).val ≤ 5 ∧ ∀ i < (5 : Count).val, (lane (sample (.s2c 5) 0 0x5454545454).ports.inLanes i).toNat ≤ 84) ∧
    84 < (lane (sample (.s2c 5) 0 0x5454545455).ports.inLanes 4).toNat ∧ 5 < (6 : Count).val ∧
    (sample (.s2c 5) 0 0x00012A5354).alphabet = defaultAlphabet ∧
    (sample (.s2c 5) 0 0x00012A5354).ports.inLanes = 0x00012A5354 := ⟨reset_legal, by decide, by decide, by decide, rfl, rfl⟩

/-- The ends of the default table, a character next above it, a count of 6, and the rule's example. -/
theorem witness_CharToSymCommandMapsTheLanes :
    legalAlphabet State.reset.alphabet = true ∧
    ((5 : Count).val ≤ 5 ∧ ∀ i < (5 : Count).val, lane (sample (.c2s 5) 0 0x2175217521).ports.inLanes i ∈ State.reset.alphabet) ∧
    lane (sample (.c2s 1) 0 0x7600000000).ports.inLanes 0 ∉ State.reset.alphabet ∧ 5 < (6 : Count).val ∧
    (sample (.c2s 5) 0 0x396A716F5E).alphabet = defaultAlphabet ∧
    (sample (.c2s 5) 0 0x396A716F5E).ports.inLanes = 0x396A716F5E :=
  ⟨reset_legal, by decide +kernel, by decide +kernel, by decide, rfl, rfl⟩

theorem witness_SymToCharAndCharToSymAreInverse :
    legalAlphabet State.reset.alphabet = true ∧ (5 : Count).val ≤ 5 ∧
    (∀ i < (5 : Count).val, (lane (sample (.s2c 5) 0 0x0054005400).ports.inLanes i).toNat ≤ 84) ∧
    (∀ i < (5 : Count).val, lane (sample (.c2s 5) 0 0x2175217521).ports.inLanes i ∈ State.reset.alphabet) :=
  ⟨reset_legal, by decide, by decide, by decide +kernel⟩

theorem witness_EncoderDigitsAreBase85 : 0xFFFFFFFF < 2 ^ 32 := by decide

/-- N = 0, N = 4 and N = 5, and the rule's examples. -/
theorem witness_EncodeCommandGivesCharacters :
    legalAlphabet (sample (.enc 4) 0xFFFFFFFF 0).alphabet = true ∧ ((0 : Count).val ≤ 4 ∧ (0 : Count).val = 0) ∧
    ((4 : Count).val ≤ 4 ∧ (4 : Count).val ≠ 0) ∧ 4 < (5 : Count).val ∧
    (sample (.enc 4) 0xFFFFFFFF 0).alphabet = defaultAlphabet ∧ (sample (.enc 4) 0xFFFFFFFF 0).ports.inWord = 0xFFFFFFFF ∧
    (sample (.enc 4) 0 0).ports.inWord = 0 ∧ (sample (.enc 4) 0x4D616E20 0).ports.inWord = 0x4D616E20 :=
  ⟨reset_legal, by decide, by decide, by decide, rfl, rfl, rfl, rfl⟩

theorem witness_EncodeDigitsCommandGivesDigits :
    legalAlphabet (sample (.encd 4) 0xFFFFFFFF 0).alphabet = true ∧ ((0 : Count).val ≤ 4 ∧ (0 : Count).val = 0) ∧
    ((4 : Count).val ≤ 4 ∧ (4 : Count).val ≠ 0) ∧ 4 < (5 : Count).val ∧
    (sample (.encd 4) 0xFFFFFFFF 0).ports.inWord = 0xFFFFFFFF := ⟨reset_legal, by decide, by decide, by decide, rfl⟩

theorem witness_EncodeIsEncodeDigitsThenSymToChar :
    legalAlphabet (sample (.enc 4) 0xFFFFFFFF 0).alphabet = true ∧ (4 : Count).val ≤ 4 := ⟨reset_legal, by decide⟩

/-- The greatest and the least digit sequence. -/
theorem witness_DecoderValueIsExact :
    ([84, 84, 84, 84, 84].length = 5 ∧ ∀ d ∈ [84, 84, 84, 84, 84], d ≤ 84) ∧
    ([0, 0, 0, 0, 0].length = 5 ∧ ∀ e ∈ [0, 0, 0, 0, 0], e ≤ 84) ∧ dec5 [84, 84, 84, 84, 84] = dec5 [84, 84, 84, 84, 84] ∧
    4437053124 ≤ 4437053124 := by decide

/-- A count of 6; an invalid character; no character; one character; five characters at the greatest value that is accepted and
one above it; two characters with padding. -/
theorem witness_DecodeCommandGivesBytes :
    legalAlphabet State.reset.alphabet = true ∧ 5 < (6 : Count).val ∧
    ((5 : Count).val ≤ 5 ∧ lane (sample (.dec 5) 0 0x7575757520).ports.inLanes 4 ∉ State.reset.alphabet) ∧
    (0 : Count).val = 0 ∧ ((1 : Count).val = 1 ∧ lane (sample (.dec 1) 0 0x2100000000).ports.inLanes 0 ∈ State.reset.alphabet) ∧
    (2 ≤ (5 : Count).val ∧
      (∀ i < (5 : Count).val, State.reset.alphabet[[82, 23, 54, 12, 0].getD i 84]? =
        some (lane (sample (.dec 5) 0 0x7338572D21).ports.inLanes i)) ∧
      GroupValue (fun i => [82, 23, 54, 12, 0].getD i 84) ≤ 0xFFFFFFFF) ∧
    ((∀ i < (5 : Count).val, State.reset.alphabet[[82, 23, 54, 12, 1].getD i 84]? =
        some (lane (sample (.dec 5) 0 0x7338572D22).ports.inLanes i)) ∧
      0xFFFFFFFF < GroupValue fun i => [82, 23, 54, 12, 1].getD i 84) ∧
    (2 ≤ (2 : Count).val ∧ (2 : Count).val ≤ 5 ∧
      (∀ i < (2 : Count).val, State.reset.alphabet[[82, 22].getD i 84]? =
        some (lane (sample (.dec 2) 0 0x7337000000).ports.inLanes i)) ∧
      ∀ i < 5, (2 : Count).val ≤ i → [82, 22].getD i 84 = 84) ∧
    (sample (.dec 5) 0 0x7575757575).alphabet = defaultAlphabet ∧
    (sample (.dec 5) 0 0x7575757575).ports.inLanes = 0x7575757575 ∧
    (sample (.dec 5) 0 0x396A716F5E).ports.inLanes = 0x396A716F5E :=
  ⟨reset_legal, by decide, by decide +kernel, by decide, by decide +kernel, by decide +kernel, by decide +kernel,
    by decide +kernel, rfl, rfl, rfl⟩

theorem witness_DecodeDigitsCommandGivesBytes :
    legalAlphabet State.reset.alphabet = true ∧ 5 < (6 : Count).val ∧
    ((5 : Count).val ≤ 5 ∧ 84 < (lane (sample (.decd 5) 0 0x0000000055).ports.inLanes 4).toNat) ∧
    (0 : Count).val = 0 ∧ ((1 : Count).val = 1 ∧ (lane (sample (.decd 1) 0 0x5400000000).ports.inLanes 0).toNat ≤ 84) ∧
    (2 ≤ (5 : Count).val ∧ ∀ i < (5 : Count).val, (lane (sample (.decd 5) 0 0x5217360C00).ports.inLanes i).toNat ≤ 84) ∧
    GroupValue (fun i => if i < 5 then (lane (sample (.decd 5) 0 0x5217360C00).ports.inLanes i).toNat else 84) ≤ 0xFFFFFFFF ∧
    0xFFFFFFFF < GroupValue (fun i => if i < 5 then (lane (sample (.decd 5) 0 0x5217360C01).ports.inLanes i).toNat else 84) ∧
    (2 ≤ (2 : Count).val ∧ ∀ i < (2 : Count).val, (lane (sample (.decd 2) 0 0x5216FFFFFF).ports.inLanes i).toNat ≤ 84) ∧
    (sample (.decd 5) 0 0x5217360C01).ports.inLanes = 0x5217360C01 := ⟨reset_legal, by decide +kernel⟩

/-- A group whose C2S succeeds, and one whose C2S does not. -/
theorem witness_DecodeIsCharToSymThenDecodeDigits :
    legalAlphabet State.reset.alphabet = true ∧ (5 : Count).val ≤ 5 ∧
    (∃ u, exec (.c2s 5) (sample (.dec 5) 0 0x7575757575) = .next u ∧ u.status = 0) ∧
    ∃ u, exec (.c2s 5) (sample (.dec 5) 0 0x7575757520) = .next u ∧ u.status ≠ 0 :=
  ⟨reset_legal, by decide, ⟨_, exec_of_legal (sample_legal _ _ _) _, by decide +kernel⟩,
    _, exec_of_legal (sample_legal _ _ _) _, by decide +kernel⟩

theorem witness_PartialGroupIsPaddedWithTheMaximumCharacter :
    let s := sample (.dec 2) 0 0x7337000000
    legalAlphabet s.alphabet = true ∧ 2 ≤ (2 : Count).val ∧ (2 : Count).val ≤ 4 ∧
    (∀ i < (2 : Count).val, lane 0x7337757575 i = lane s.ports.inLanes i) ∧
    (∀ i < 5, (2 : Count).val ≤ i → s.alphabet[84]? = some (lane 0x7337757575 i)) :=
  ⟨reset_legal, by decide, by decide, by decide +kernel, by decide +kernel⟩

theorem witness_GroupRoundTrip :
    legalAlphabet (sample (.enc 4) 0xFFFFFFFF 0).alphabet = true ∧ 1 ≤ (4 : Count).val ∧ (4 : Count).val ≤ 4 ∧
    (5 : Count).val = (4 : Count).val + 1 := ⟨reset_legal, by decide⟩

/-- The greatest accepted and the least rejected group of two digits, of five digits, and of each length of characters. -/
theorem witness_OverflowLimitsPerGroupLength :
    legalAlphabet State.reset.alphabet = true ∧ 2 ≤ (2 : Count).val ∧ (5 : Count).val ≤ 5 ∧
    (∀ i < (2 : Count).val, (lane (sample (.decd 2) 0 0x5216000000).ports.inLanes i).toNat ≤ 84) ∧
    (∀ i < (5 : Count).val, (lane (sample (.decd 5) 0 0x5217360C01).ports.inLanes i).toNat ≤ 84) ∧
    (sample (.dec 2) 0 0x7337000000).alphabet = defaultAlphabet ∧
    ∀ l ∈ [0x7337000000, 0x7338000000, 0x7338560000, 0x7338570000, 0x7338572C00, 0x7338572D00, 0x7338572D21, 0x7338572D22],
      (sample (.dec 2) 0 l).ports.inLanes = l := ⟨reset_legal, by decide, by decide, by decide, by decide, rfl, fun _ _ => rfl⟩

theorem witness_AcceptedPartialGroupsDecodeLikeTheCanonicalOne :
    (2 ≤ (2 : Count).val ∧ (2 : Count).val ≤ 4 ∧ (2 : Count).val = (1 : Count).val + 1) ∧
    (∃ t, exec (.dec 2) (sample (.dec 2) 0 0x356D000000) = .next t ∧ t.status = 0) ∧
    (sample (.dec 2) 0 0x356D000000).alphabet = defaultAlphabet ∧
    (sample (.dec 2) 0 0x356D000000).ports.inLanes = 0x356D000000 ∧
    (sample (.dec 2) 0 0x356C000000).ports.inLanes = 0x356C000000 ∧
    (sample (.enc 1) 0x41000000 0).ports.inWord = 0x41000000 :=
  ⟨by decide, ⟨_, exec_of_legal (sample_legal _ _ _) _, by decide +kernel⟩, rfl, rfl, rfl, rfl⟩

/-- Each cause applies somewhere: a count out of range; a character out of alphabet in a group that overflows too, and in a group
of one; a group of one; an overflow; and a word that is no command. -/
theorem witness_StatusIsTheFirstCauseThatApplies :
    legalAlphabet State.reset.alphabet = true ∧
    CauseApplies (.enc 5) (sample (.enc 5) 0 0) .illegalCommand ∧
    CauseApplies (.dec 1) (sample (.dec 1) 0 0x2000000000) .invalidCharacter ∧
    CauseApplies (.dec 1) (sample (.dec 1) 0 0x2000000000) .invalidLength ∧
    CauseApplies (.decd 5) (sample (.decd 5) 0 0x5454545455) .invalidCharacter ∧
    CauseApplies (.decd 5) (sample (.decd 5) 0 0x5454545455) .groupOverflow ∧
    CauseApplies (.dec 5) (sample (.dec 5) 0 0x7575757575) .groupOverflow ∧
    (rawSample 0x40).ports.rst = false ∧ (rawSample 0x40).ports.cmdValid = true ∧
    ∀ i, decodeCmd (rawSample 0x40).ports.cmd ≠ .ok i := by
  refine ⟨reset_legal, ?_, ⟨0, by decide, by decide, ?_⟩, .inl rfl, ⟨4, by decide, by decide, by decide⟩, ?_, ?_, by decide,
    by decide, fun i h => ?_⟩
  · unfold CauseApplies; decide
  · show lane 0x2000000000 0 ∉ defaultAlphabet; decide +kernel
  · exact ⟨by decide, by decide, by decide +kernel⟩
  · exact ⟨by decide, by decide, fun _ => 84, by decide +kernel, fun _ _ _ => rfl, by decide⟩
  · cases h.symm.trans (by decide : decodeCmd (rawSample 0x40).ports.cmd = .error .reservedBits)

theorem witness_DecodeFailuresCanBeToldApart :
    (sample (.dec 1) 0 0x2100000000).alphabet = defaultAlphabet ∧
    (sample (.dec 1) 0 0x2100000000).ports.inLanes = 0x2100000000 ∧
    (sample (.dec 5) 0 0x7575757575).ports.inLanes = 0x7575757575 ∧
    lane (sample (.dec 2) 0 0x2021000000).ports.inLanes 0 = 0x20 := ⟨rfl, rfl, rfl, by decide⟩

theorem witness_BytesAndLanesAreMostSignificantFirst : (3 : Nat) < 4 ∧ (4 : Nat) < 5 := by decide

theorem witness_BuffersArePartitionedAtGroupBoundaries :
    [4, 5] ∈ (rawGroups [0, 1, 2, 3, 4, 5])[1]? ∧ [5] ∈ (encodedGroups [0, 1, 2, 3, 4, 5])[1]? := by decide

theorem witness_EncodedBufferLength : legalAlphabet State.reset.alphabet = true := reset_legal

theorem witness_BufferProceduresDependOnTheBufferAlone :
    legalAlphabet State.reset.alphabet = true ∧ (sample (.c2s 5) 1 1).alphabet = State.reset.alphabet := ⟨reset_legal, rfl⟩

/-- A buffer for each clause: an invalid character, a stray character, an overflow, and none of them (default table). -/
theorem witness_BufferFailureIsTheHighestPriority :
    legalAlphabet State.reset.alphabet = true ∧
    (0x20 : Byte) ∉ State.reset.alphabet ∧
    ((∀ c ∈ ([0x39, 0x6A, 0x71, 0x6F, 0x5E, 0x21] : List Byte), c ∈ State.reset.alphabet) ∧
      ([0x39, 0x6A, 0x71, 0x6F, 0x5E, 0x21] : List Byte).length % 5 = 1) ∧
    ((∀ c ∈ ([0x73, 0x38] : List Byte), c ∈ State.reset.alphabet) ∧ ([0x73, 0x38] : List Byte).length % 5 ≠ 1 ∧
      [0x73, 0x38] ∈ encodedGroups [0x73, 0x38] ∧ GroupOverflows State.reset.alphabet [0x73, 0x38]) ∧
    ((∀ c ∈ ([] : List Byte), c ∈ State.reset.alphabet) ∧ ([] : List Byte).length % 5 ≠ 1 ∧
      ∀ g ∈ encodedGroups [], ¬ GroupOverflows State.reset.alphabet g) := by
  refine ⟨reset_legal, by decide +kernel, ⟨by decide +kernel, by decide⟩, ⟨by decide +kernel, by decide, by decide, [82, 23], ?_,
    by decide⟩, by simp, by decide, by simp [encodedGroups]⟩
  exact .cons (by decide +kernel) (.cons (by decide +kernel) .nil)

/-- L3-BUF-8: the host procedure gives bytes. -/
theorem witness_DecodedBufferLength : ∃ t, decodeBuffer [0x35, 0x6D] State.reset = .next (t, .bytes [0x41]) :=
  given_eq_some (by decide +kernel)

theorem witness_BufferRoundTrip :
    legalAlphabet State.reset.alphabet = true ∧ State.reset.alphabet = defaultAlphabet := ⟨reset_legal, rfl⟩

theorem witness_BuffersStayInTheAlphabet :
    (∃ t out, encodeBuffer 0 [] State.reset = .next (t, out)) ∧ legalAlphabet State.reset.alphabet = true ∧
    (0x20 : Byte) ∈ ([0x20] : List Byte) ∧ (0x20 : Byte) ∉ State.reset.alphabet :=
  ⟨⟨_, _, rfl⟩, reset_legal, by decide, by decide +kernel⟩

theorem witness_ProgramLinesRunOneAnEdge :
    ∃ t, step (State.reset.loadProgram [.reset, .word (.enc 4) 0x4D616E20]) = .next t :=
  ⟨_, step_of_legal (by exact reset_legal)⟩

/-- A system of two blocks, the second with a command. -/
def twoBlocks : System := ⟨defaultAlphabet, [State.reset.toBlock, (sample (.enc 4) 0x4D616E20 0).toBlock]⟩

theorem witness_BlocksShareNoState :
    twoBlocks.unit 1 = some (sample (.enc 4) 0x4D616E20 0) ∧ legalAlphabet twoBlocks.alphabet = true ∧ (0 : Nat) ≠ 1 :=
  ⟨rfl, reset_legal, by decide⟩

theorem witness_EdgesOfTwoBlocksCommute : (0 : Nat) ≠ 1 ∧ (twoBlocks.unit 0).isSome ∧ (twoBlocks.unit 1).isSome := by decide

/-- L2-ENC-3 in the second of two blocks: the system's table is read, and the first block stays as it was. -/
theorem test_second_block :
    (match stepUnit 1 twoBlocks with
      | .next z => some ((z.unit 0).map State.outputs, (z.unit 1).map State.outputs)
      | .fault _ => none
      | .refused _ => none) =
      some (some ⟨false, 0, 0, 0, 0⟩, some ⟨true, 0, 5, 0, 0x396A716F5E⟩) := by decide +kernel

end Sys2Proof.Machine
end

section
/-! The output ports as reads of the registers (R22), and the obligation that says so of all five. -/

namespace Sys2Proof.Machine

@[simp] theorem State.outputs_rspValid (s : State) : s.outputs.rspValid = s.rspValid := rfl
@[simp] theorem State.outputs_outStatus (s : State) : s.outputs.outStatus = s.status := rfl
@[simp] theorem State.outputs_outCount (s : State) : s.outputs.outCount = s.count := rfl
@[simp] theorem State.outputs_outWord (s : State) : s.outputs.outWord = s.word := rfl
@[simp] theorem State.outputs_outLanes (s : State) : s.outputs.outLanes = s.lanes := rfl

/-- Settles O41, one port at a time: `State.outputs` puts no logic between a register and its port. -/
theorem outputPortsReadTheRegisters : Obligations.OutputPortsReadTheRegisters := fun s =>
  ⟨s.outputs_rspValid, s.outputs_outStatus, s.outputs_outCount, s.outputs_outWord, s.outputs_outLanes⟩

end Sys2Proof.Machine
end

section
/-! Rising edges in a row: the last edge of a run set apart, what the block and its host hold after a run, and that the response
after an edge is the one of the command accepted at it (R58). -/

namespace Sys2Proof.Machine

/-- A run told from its end: the last edge follows the edges before it. -/
theorem edges_succ (k : Nat) (s : State) : edges (k + 1) s = andThen (edges k s) step := by
  induction k generalizing s with
  | zero => show andThen (step s) (edges 0) = step s; cases step s <;> rfl
  | succ k ih =>
    show andThen (step s) (edges (k + 1)) = andThen (andThen (step s) (edges k)) step
    cases step s with
    | next t => exact ih t
    | fault r => rfl
    | refused r => rfl

/-- After `k` edges of a legal configuration the table is as before and the ports hold sample `k` of the host's plan. -/
theorem edges_of_legal (k : Nat) {s : State} (h : legalAlphabet s.alphabet = true) :
    ∃ t, edges k s = .next t ∧ t.alphabet = s.alphabet ∧ t.ports = (s.ports :: s.schedule).getD k Ports.idle := by
  induction k generalizing s with
  | zero => exact ⟨s, rfl, rfl, rfl⟩
  | succ k ih =>
    have ha : (edgeState s).advance.alphabet = s.alphabet := by simp
    obtain ⟨t, ht, hta, htp⟩ := ih (ha.symm ▸ h)
    refine ⟨t, ?_, hta.trans ha, htp.trans ?_⟩
    · rw [edges, step_of_legal h, andThen_next, ht]
    · rw [State.advance_ports, State.advance_schedule, edgeState_schedule]
      cases s.schedule with
      | nil => cases k <;> rfl
      | cons q qs => rfl

/-- The last of the coming samples. -/
theorem comingSamples_succ (s : State) (k : Nat) :
    ComingSamples s (k + 1) = ComingSamples s k ++ [(s.ports :: s.schedule).getD k Ports.idle] := by
  simp [ComingSamples, List.range_succ]

/-- The response of a command reads the table and the ports alone (R30). -/
theorem responseOf_congr (i : Instr) {s u : State} (ha : u.alphabet = s.alphabet) (hp : u.ports = s.ports) :
    responseOf i u = responseOf i s := by
  cases s; cases u; cases ha; cases hp
  cases i <;> rfl

theorem edgeState_illegal {s : State} {e : IllegalCmd} (h : s.ports.rst = false) (hv : s.ports.cmdValid = true)
    (hd : decodeCmd s.ports.cmd = .error e) : edgeState s = s.answer (raise .illegalCommand) := by
  simp [edgeState, h, hv, hd]

@[simp] theorem State.outputs_advance (s : State) : s.advance.outputs = s.outputs := rfl

@[simp] theorem State.outputs_answer (s : State) (r : Response) :
    (s.answer r).outputs = ⟨true, r.status, r.count, r.word, r.lanes⟩ := rfl

/-- Settles O21: the run up to the last edge leaves the table and brings `p` to the ports, and the last edge writes all five
registers with a response that reads nothing else. -/
theorem responseBelongsToTheCommandOfItsEdge : Obligations.ResponseBelongsToTheCommandOfItsEdge := by
  intro k s u p hs hlast hrst hvalid hua hup
  obtain ⟨t, ht, hta, htp⟩ := edges_of_legal k hs
  have hp : t.ports = p := by
    have := List.append_cancel_left ((comingSamples_succ s k).symm.trans hlast)
    exact htp.trans (List.singleton_inj.1 this)
  have hlegal : legalAlphabet t.alphabet = true := hta.symm ▸ hs
  subst hp
  refine ⟨(edgeState t).advance, ?_, fun i hi => ?_, fun e he => ?_⟩
  · rw [edges_succ, ht, andThen_next, step_of_legal hlegal]
  · refine ⟨_, exec_of_legal (hua.symm ▸ hs) i, ?_⟩
    rw [State.outputs_advance, edgeState_command hrst hvalid hi, responseOf_congr i (hua.trans hta.symm) hup,
      State.outputs_answer, State.outputs_answer]
  · rw [State.outputs_advance, edgeState_illegal hrst hvalid he, State.outputs_answer, raise_eq]
    rfl

end Sys2Proof.Machine
end

section
/-! The cutting of a buffer into groups (R56), for both group lengths at once: what holds of any function that takes `n` bytes
from the front again and again, and that `rawGroups` and `encodedGroups` are two of these. -/

namespace Sys2Proof.Machine

/-- `f` cuts a buffer every `n` bytes, from offset 0. -/
structure CutsEvery (n : Nat) (f : List Byte → List (List Byte)) : Prop where
  pos : 0 < n
  nil : f [] = []
  cut : ∀ b, b ≠ [] → f b = b.take n :: f (b.drop n)

theorem rawGroups_cutsEvery : CutsEvery 4 rawGroups where
  pos := by omega
  nil := rfl
  cut b hb := match b, hb with
    | [_], _ | [_, _], _ | [_, _, _], _ => rfl
    | _ :: _ :: _ :: _ :: _, _ => rfl

theorem encodedGroups_cutsEvery : CutsEvery 5 encodedGroups where
  pos := by omega
  nil := rfl
  cut b hb := match b, hb with
    | [_], _ | [_, _], _ | [_, _, _], _ | [_, _, _, _], _ => rfl
    | _ :: _ :: _ :: _ :: _ :: _, _ => rfl

namespace CutsEvery

variable {n : Nat} {f : List Byte → List (List Byte)}

/-- Induction over a buffer group by group. -/
theorem induction {P : List Byte → Prop} (h : CutsEvery n f) (nil : P [])
    (cut : ∀ b, b ≠ [] → P (b.drop n) → P b) (b : List Byte) : P b :=
  if hb : b = [] then hb ▸ nil else cut b hb (h.induction nil cut (b.drop n))
termination_by b.length
decreasing_by
  have := h.pos
  have := List.length_pos_iff.2 hb
  rw [List.length_drop]; omega

/-- The groups joined are the buffer. -/
theorem flatten (h : CutsEvery n f) (b : List Byte) : (f b).flatten = b := by
  induction b using h.induction with
  | nil => rw [h.nil, List.flatten_nil]
  | cut b hb ih => rw [h.cut b hb, List.flatten_cons, ih, List.take_append_drop]

/-- There are `⌈length / n⌉` groups. -/
theorem length (h : CutsEvery n f) (b : List Byte) : (f b).length = (b.length + (n - 1)) / n := by
  have hn := h.pos
  induction b using h.induction with
  | nil => rw [h.nil, List.length_nil, List.length_nil, Nat.div_eq_of_lt (by omega)]
  | cut b hb ih =>
    have hpos := List.length_pos_iff.2 hb
    rw [h.cut b hb, List.length_cons, ih, List.length_drop]
    rcases Nat.lt_or_ge b.length n with hlt | hge
    · rw [Nat.div_eq_of_lt (by omega), show b.length + (n - 1) = b.length - 1 + n by omega,
        Nat.add_div_right _ hn, Nat.div_eq_of_lt (by omega)]
    · rw [← Nat.add_div_right _ hn, show b.length - n + (n - 1) + n = b.length + (n - 1) by omega]

/-- A buffer that has a group is not empty. -/
theorem ne_nil (h : CutsEvery n f) {g : Nat} {b x : List Byte} (hx : (f b)[g]? = some x) : b ≠ [] := by
  rintro rfl
  simp [h.nil] at hx

/-- Group `g` is the up to `n` bytes from offset `n * g` on, and never empty. -/
theorem group (h : CutsEvery n f) {g : Nat} {b x : List Byte} (hx : (f b)[g]? = some x) :
    x = (b.drop (n * g)).take n ∧ x ≠ [] := by
  induction g generalizing b with
  | zero =>
    have hb := h.ne_nil hx
    obtain rfl : b.take n = x := by simpa [h.cut b hb] using hx
    exact ⟨rfl, by simp [hb, h.pos.ne']⟩
  | succ g ih =>
    rw [h.cut b (h.ne_nil hx), List.getElem?_cons_succ] at hx
    rw [Nat.mul_succ, Nat.add_comm, ← List.drop_drop]
    exact ih hx

end CutsEvery

/-- Settles O43: both group functions cut every `n` bytes, with `n = 4` and `n = 5`. -/
theorem buffersArePartitionedAtGroupBoundaries : Obligations.BuffersArePartitionedAtGroupBoundaries := fun b =>
  have raw := rawGroups_cutsEvery
  have enc := encodedGroups_cutsEvery
  ⟨raw.flatten b, raw.length b, fun _ _ hx => raw.group hx, enc.flatten b, enc.length b, fun _ _ hx => enc.group hx⟩

end Sys2Proof.Machine
end

section
/-! The command word as a number (R70): its fields, the one command it decodes to (R75, R78), which words are illegal (R76), and
the empty group (R77). -/

namespace Sys2Proof.Machine

/-! ### The fields of a word -/

theorem rsvField_toNat (cmd : Byte) : (rsvField cmd).toNat = cmd.toNat / 64 := by
  simp only [rsvField, BitVec.extractLsb'_toNat, Nat.shiftRight_eq_div_pow]
  omega

theorem nField_val (cmd : Byte) : (nField cmd).val = cmd.toNat / 8 % 8 := by
  simp [nField, Nat.shiftRight_eq_div_pow]

theorem opField_toNat (cmd : Byte) : (opField cmd).toNat = cmd.toNat % 8 := by
  simp [opField, BitVec.extractLsb'_toNat]

theorem opcodeMap_eq_some_iff {op : BitVec 3} {n : Count} {i : Instr} :
    opcodeMap op n = some i ↔ op = i.opcode ∧ n = i.count := by
  constructor
  · unfold opcodeMap
    split <;> rintro ⟨⟩ <;> exact ⟨rfl, rfl⟩
  · rintro ⟨rfl, rfl⟩
    cases i <;> rfl

/-- The opcodes 110 and 111 are the ones without a command (R74). -/
theorem opcodeMap_eq_none_iff {op : BitVec 3} {n : Count} : opcodeMap op n = none ↔ 5 < op.toNat := by
  revert op n
  decide

/-! ### Decoding -/

/-- A word decodes to a command when its fields are the command's and the count is in range. -/
theorem decodeCmd_eq_ok_iff_fields {cmd : Byte} {i : Instr} :
    decodeCmd cmd = .ok i ↔ rsvField cmd = 0 ∧ (opField cmd = i.opcode ∧ nField cmd = i.count) ∧ i.WellFormed := by
  rw [← opcodeMap_eq_some_iff]
  constructor
  · unfold decodeCmd
    split
    · nofun
    · rename_i hr
      split
      · nofun
      · rename_i j hm
        split
        · rename_i hw
          rintro ⟨⟩
          exact ⟨not_not.1 hr, hm, hw⟩
        · nofun
  · rintro ⟨hr, hm, hw⟩
    simp [decodeCmd, hr, hm, hw]

/-- The word of a legal command is `8 * N + OP`, and no other word decodes to it. -/
theorem decodeCmd_eq_ok_iff {cmd : Byte} {i : Instr} :
    decodeCmd cmd = .ok i ↔ i.count.val ≤ i.maxCount ∧ cmd.toNat = 8 * i.count.val + i.opcode.toNat := by
  have hn := i.count.isLt
  have ho := i.opcode.isLt
  rw [decodeCmd_eq_ok_iff_fields, ← BitVec.toNat_inj, ← BitVec.toNat_inj, Fin.ext_iff, rsvField_toNat, opField_toNat,
    nField_val]
  show cmd.toNat / 64 = 0 ∧ _ ↔ _
  omega

/-! ### The list of legal values (R78) -/

/-- The words of an opcode `op` with the counts 0 to `max`, in order, hold `8 * n + op` at place `n`. -/
theorem getElem?_legalWords {op max n c : Nat} :
    ((List.range (max + 1)).map fun k => 8 * k + op)[n]? = some c ↔ n ≤ max ∧ c = 8 * n + op := by
  rw [List.getElem?_eq_some_iff]
  simp [eq_comm]

/-- Settles O4: each row of R78's list is the list of the words `8 * n + op`; the 34 are counted. -/
theorem decodeFollowsTheListOfLegalValues : Obligations.DecodeFollowsTheListOfLegalValues :=
  ⟨fun _ _ =>
    have row {i c} := (decodeCmd_eq_ok_iff (i := i) (cmd := c)).trans getElem?_legalWords.symm
    ⟨row, row, row, row, row, row⟩, by decide⟩

/-! ### Illegal words (R76) -/

/-- R76's cases, for the word as a number: RSV not 00, a reserved OP, or N out of the range of OP. -/
def IllegalWord (c : Nat) : Prop :=
  c / 64 ≠ 0 ∨ c % 8 = 6 ∨ c % 8 = 7 ∨ ((c % 8 = 0 ∨ c % 8 = 2) ∧ 4 < c / 8 % 8) ∨
    ((c % 8 = 1 ∨ c % 8 = 3 ∨ c % 8 = 4 ∨ c % 8 = 5) ∧ 5 < c / 8 % 8)

theorem not_illegalWord_of_decodeCmd {cmd : Byte} {i : Instr} (h : decodeCmd cmd = .ok i) : ¬ IllegalWord cmd.toNat := by
  obtain ⟨hn, hc⟩ := decodeCmd_eq_ok_iff.1 h
  unfold IllegalWord
  cases i <;> simp only [Instr.count, Instr.maxCount, Instr.opcode, BitVec.toNat_ofNat] at hn hc <;> omega

theorem decodeCmd_of_not_illegalWord {cmd : Byte} (h : ¬ IllegalWord cmd.toNat) : ∃ i, decodeCmd cmd = .ok i := by
  unfold IllegalWord at h
  have hop : opcodeMap (opField cmd) (nField cmd) ≠ none := by
    rw [Ne, opcodeMap_eq_none_iff, opField_toNat]
    omega
  obtain ⟨i, hi⟩ := Option.ne_none_iff_exists'.1 hop
  obtain ⟨ho, hn⟩ := opcodeMap_eq_some_iff.1 hi
  have ho' := (opField_toNat cmd).symm.trans (congrArg BitVec.toNat ho)
  have hn' := (nField_val cmd).symm.trans (congrArg Fin.val hn)
  refine ⟨i, decodeCmd_eq_ok_iff.2 ⟨?_, by omega⟩⟩
  cases i <;> simp only [Instr.count, Instr.maxCount, Instr.opcode, BitVec.toNat_ofNat] at ho' hn' ⊢ <;> omega

/-! ### A legal command's status -/

theorem decodeGroup_status_ne_illegal (k : Nat) (ds : List Nat) : (decodeGroup k ds).status ≠ 4 := by
  unfold decodeGroup
  split_ifs <;> simp [Status.code]

/-- ILLEGAL_COMMAND is the status of illegal words alone (R204). -/
theorem legalResponse_status_ne_illegal (i : Instr) (s : State) : (legalResponse i s).status ≠ 4 := by
  cases i with
  | enc n | encd n => simp [legalResponse, encResponse, encdResponse]
  | dec n | decd n =>
    simp only [legalResponse, decResponse, decdResponse]
    split
    · simp [Status.code]
    · exact decodeGroup_status_ne_illegal _ _
  | s2c n | c2s n =>
    simp only [legalResponse, s2cResponse, c2sResponse]
    split <;> simp [Status.code]

/-- Settles O5: R76's cases are those in which the word does not decode, and what it then answers reads no operand. -/
theorem illegalCommandsCompleteWithIllegalCommand : Obligations.IllegalCommandsCompleteWithIllegalCommand := by
  intro s hs hrst hvalid
  refine ⟨fun (hill : IllegalWord s.ports.cmd.toNat) => ?_, fun (hleg : ¬ IllegalWord s.ports.cmd.toNat) => ?_⟩
  · cases hd : decodeCmd s.ports.cmd with
    | ok i => exact absurd hill (not_illegalWord_of_decodeCmd hd)
    | error e =>
      refine ⟨_, step_of_legal hs, ?_, by simp⟩
      rw [State.outputs_advance, edgeState_illegal hrst hvalid hd, State.outputs_answer, raise_eq]
      rfl
  · obtain ⟨i, hi⟩ := decodeCmd_of_not_illegalWord hleg
    refine ⟨_, step_of_legal hs, ?_⟩
    rw [edgeState_command hrst hvalid hi, State.advance_status, State.answer_status,
      responseOf_legal (decodeCmd_eq_ok_iff.1 hi).1]
    exact legalResponse_status_ne_illegal i s

/-! ### The empty group (R77) -/

@[simp] theorem packLanes_nil : packLanes [] = 0 := by decide

@[simp] theorem encodeDigits_zero (s : State) : encodeDigits 0 s = [] := rfl

@[simp] theorem charOperand_zero (s : State) : charOperand 0 s = some [] := rfl

@[simp] theorem digitOperand_zero (s : State) : digitOperand 0 s = some [] := rfl

/-- No bytes, lanes, characters or digits in, and none out. -/
theorem legalResponse_emptyGroup {i : Instr} (h : i.count = 0) (s : State) : legalResponse i s = complete .ok 0 0 0 := by
  cases i <;> obtain rfl := h
  case enc | encd => simp [legalResponse, encResponse, encdResponse, encodedLength, charLanes, digitLanes]
  case dec | decd => simp [legalResponse, decResponse, decdResponse, decodeGroup]
  case s2c | c2s => simp [legalResponse, s2cResponse, c2sResponse, charLanes, digitLanes]

/-- Settles O20: the count 0 is in every range, and the response to it is the same for all six commands. -/
theorem emptyGroupIsLegalForEveryOpcode : Obligations.EmptyGroupIsLegalForEveryOpcode := by
  intro i s hs hcount
  have hwf : i.WellFormed := by simp [Instr.WellFormed, hcount]
  refine ⟨hwf, ?_⟩
  rw [exec_of_legal hs, responseOf_legal hwf, legalResponse_emptyGroup hcount]
  rfl

end Sys2Proof.Machine
end

section
/-! The table as R102 describes it, and the two lookups in it as inverses (R100, R101); the default table and its lookups (R103). -/

namespace Sys2Proof.Machine

/-! ### A legal table -/

/-- The check of a configuration, in R102's own words. -/
theorem legalAlphabet_iff {a : Alphabet} :
    legalAlphabet a = true ↔ a.length = 85 ∧ (∀ c ∈ a, 0x21 ≤ c.toNat ∧ c.toNat ≤ 0x7E) ∧ a.Nodup := by
  simp only [legalAlphabet, Bool.and_eq_true, beq_iff_eq, List.all_eq_true, printable_iff, pairwiseDistinct_iff, and_assoc]

theorem length_of_legalAlphabet {a : Alphabet} (h : legalAlphabet a = true) : a.length = 85 := (legalAlphabet_iff.1 h).1

theorem nodup_of_legalAlphabet {a : Alphabet} (h : legalAlphabet a = true) : a.Nodup := (legalAlphabet_iff.1 h).2.2

/-- The positions of a legal table are the symbol values 0 to 84. -/
theorem le_84_of_getElem?_eq_some {a : Alphabet} (h : legalAlphabet a = true) {s : Nat} {c : Byte} (hc : a[s]? = some c) :
    s ≤ 84 := by
  have hs : s < a.length := (List.getElem?_eq_some_iff.1 hc).1
  have hl := length_of_legalAlphabet h
  omega

/-- A legal table is injective (R102): no character stands at two positions. -/
theorem symbol_unique_of_legal {a : Alphabet} (h : legalAlphabet a = true) {s t : Nat} {c : Byte} (hs : a[s]? = some c)
    (ht : a[t]? = some c) : s = t :=
  (List.getElem?_inj (List.getElem?_eq_some_iff.1 hs).1 (nodup_of_legalAlphabet h)).1 (hs.trans ht.symm)

/-- The first position that R101's loop finds is the only one. -/
theorem char2sym_eq_some {a : Alphabet} (h : legalAlphabet a = true) {c : Byte} {s : Nat} :
    char2sym a c = some s ↔ a[s]? = some c := by
  have hfirst : char2sym a c = some s ↔ 0 ≤ s ∧ a[s]? = some c ∧ ∀ j < s, a[j]? ≠ some c := char2symFrom_eq_some
  rw [hfirst]
  constructor
  · rintro ⟨-, hs, -⟩
    exact hs
  · intro hs
    exact ⟨s.zero_le, hs, fun j hj hjc => hj.ne (symbol_unique_of_legal h hjc hs)⟩

/-- A character of the table stands at one of the symbol values 0 to 84. -/
theorem mem_legalAlphabet_iff {a : Alphabet} (h : legalAlphabet a = true) {c : Byte} : c ∈ a ↔ ∃ s ≤ 84, a[s]? = some c := by
  rw [List.mem_iff_getElem?]
  exact exists_congr fun s => (and_iff_right_of_imp (le_84_of_getElem?_eq_some h)).symm

/-- Settles O22: the table's positions are the symbol values, and no character stands at two of them. -/
theorem charToSymInvertsSymToChar : Obligations.CharToSymInvertsSymToChar := by
  intro a h
  refine ⟨fun s hs => getElem?_sym2char h hs, fun c s => ?_, fun c => ?_⟩
  · rw [char2sym_eq_some h, and_iff_right_of_imp (le_84_of_getElem?_eq_some h)]
  · rw [char2sym_eq_none, mem_legalAlphabet_iff h]
    simp only [not_exists, not_and, ne_eq]

/-! ### The default table (R103) -/

theorem defaultAlphabet_length : defaultAlphabet.length = 85 := by simp [defaultAlphabet]

theorem defaultAlphabet_getElem? {s : Nat} (hs : s < 85) : defaultAlphabet[s]? = some (BitVec.ofNat 8 (0x21 + s)) := by
  simp [defaultAlphabet, hs]

/-- No entry wraps around: the last one is 0x75. -/
theorem defaultEntry_toNat {s : Nat} (hs : s < 85) : (BitVec.ofNat 8 (0x21 + s)).toNat = 0x21 + s := by
  rw [BitVec.toNat_ofNat]
  omega

/-- The entry at a character's distance from 0x21 is that character. -/
theorem defaultEntry_sub {c : Byte} (hlo : 0x21 ≤ c.toNat) : BitVec.ofNat 8 (0x21 + (c.toNat - 0x21)) = c := by
  rw [Nat.add_sub_cancel' hlo, BitVec.ofNat_toNat, BitVec.setWidth_eq]

theorem mem_defaultAlphabet_iff {c : Byte} : c ∈ defaultAlphabet ↔ 0x21 ≤ c.toNat ∧ c.toNat ≤ 0x75 := by
  simp only [defaultAlphabet, List.mem_map, List.mem_range]
  constructor
  · rintro ⟨s, hs, rfl⟩
    rw [defaultEntry_toNat hs]
    omega
  · rintro ⟨hlo, hhi⟩
    exact ⟨c.toNat - 0x21, by omega, defaultEntry_sub hlo⟩

theorem defaultAlphabet_nodup : defaultAlphabet.Nodup := by
  refine List.nodup_range.map_on fun s hs t ht heq => ?_
  have hnat := congrArg BitVec.toNat heq
  rw [defaultEntry_toNat (List.mem_range.1 hs), defaultEntry_toNat (List.mem_range.1 ht)] at hnat
  omega

theorem defaultAlphabet_legal : legalAlphabet defaultAlphabet = true := by
  refine legalAlphabet_iff.2 ⟨defaultAlphabet_length, fun c hc => ?_, defaultAlphabet_nodup⟩
  obtain ⟨hlo, hhi⟩ := mem_defaultAlphabet_iff.1 hc
  omega

/-- Settles O23: the table is contiguous, so a character in it stands at its distance from 0x21. -/
theorem defaultAlphabetIsContiguous : Obligations.DefaultAlphabetIsContiguous := by
  refine ⟨defaultAlphabet_legal, fun s hs => sym2char_of_getElem? (defaultAlphabet_getElem? hs), fun c => ?_⟩
  split
  next hc =>
    obtain ⟨hlo, hhi⟩ := hc
    rw [char2sym_eq_some defaultAlphabet_legal, defaultAlphabet_getElem? (by omega), defaultEntry_sub hlo]
  next hc => exact char2sym_eq_none.2 (mem_defaultAlphabet_iff.not.2 hc)

end Sys2Proof.Machine
end

section
/-! The value of five digits (R140) as a number in base 85, written most significant digit first, and `enc5` as its inverse. -/

namespace Sys2Proof.Machine

/-- Mathlib's `Nat.ofDigits` takes the least significant digit first, so `dec5` is `Nat.ofDigits` of the reversed digits. -/
theorem dec5_eq_ofDigits {ds : List Nat} (h : ds.length = 5) : dec5 ds = Nat.ofDigits 85 ds.reverse := by
  match ds, h with
  | [d0, d1, d2, d3, d4], _ =>
    simp only [dec5, List.getD_cons_zero, List.getD_cons_succ, List.reverse_cons, List.reverse_nil, List.nil_append,
      List.cons_append, Nat.ofDigits_cons, Nat.ofDigits_nil]
    omega

@[simp] theorem length_enc5 (v : Nat) : (enc5 v).length = 5 := by simp [enc5, Config.groupDigits]

theorem le_84_of_mem_enc5 {v d : Nat} (h : d ∈ enc5 v) : d ≤ 84 := by
  obtain ⟨i, -, rfl⟩ := List.mem_map.1 h
  exact Nat.le_of_lt_succ (Nat.mod_lt _ (by decide))

/-- The digits of `enc5` (R120) stand for the number they were taken from, in the whole range of `dec5`. -/
theorem dec5_enc5 {v : Nat} (h : v < 85 ^ 5) : dec5 (enc5 v) = v := by
  show v / 85 ^ 4 % 85 * 85 ^ 4 + v / 85 ^ 3 % 85 * 85 ^ 3 + v / 85 ^ 2 % 85 * 85 ^ 2 + v / 85 ^ 1 % 85 * 85 +
    v / 85 ^ 0 % 85 = v
  omega

theorem lt_85_of_mem_reverse {ds : List Nat} (hd : ∀ d ∈ ds, d ≤ 84) : ∀ d ∈ ds.reverse, d < 85 :=
  fun d hm => Nat.lt_succ_of_le (hd d (List.mem_reverse.1 hm))

theorem dec5_lt {ds : List Nat} (hl : ds.length = 5) (hd : ∀ d ∈ ds, d ≤ 84) : dec5 ds < 85 ^ 5 := by
  rw [dec5_eq_ofDigits hl, ← hl, ← List.length_reverse]
  exact Nat.ofDigits_lt_base_pow_length (by decide) (lt_85_of_mem_reverse hd)

theorem dec5_inj {ds es : List Nat} (hds : ds.length = 5) (hes : es.length = 5) (hd : ∀ d ∈ ds, d ≤ 84)
    (he : ∀ e ∈ es, e ≤ 84) (h : dec5 ds = dec5 es) : ds = es := by
  rw [dec5_eq_ofDigits hds, dec5_eq_ofDigits hes] at h
  exact List.reverse_injective (Nat.ofDigits_inj_of_len_eq (b := 85) (by decide) (by simp [hds, hes])
    (lt_85_of_mem_reverse hd) (lt_85_of_mem_reverse he) h)

/-- Settles O31: `dec5` is a base 85 value, and `enc5` gives the digits of every value in its range. -/
theorem decoderValueIsExact : Obligations.DecoderValueIsExact :=
  ⟨fun _ _ _ _ _ => rfl, fun _ hl hd => Nat.le_of_lt_succ (dec5_lt hl hd), fun _ _ => dec5_inj,
    fun v hv => ⟨enc5 v, length_enc5 v, fun _ => le_84_of_mem_enc5, dec5_enc5 (Nat.lt_succ_of_le hv)⟩⟩

end Sys2Proof.Machine
end

section
/-! DECODE_BUFFER (R173): the response to one group as a function of the table and the group's characters, the status that the
groups give together, and which of the three failures it is (R174, R175). -/

namespace Sys2Proof.Machine

/-! ### One group -/

/-- The response of DEC to the group `g` (R146), from the table and the characters alone. -/
def groupResponse (a : Alphabet) (g : List Byte) : Response :=
  (symbolsOfChars a g).elim (raise .invalidCharacter) (decodeGroup g.length)

/-- The status that the host reads after the group `g`. -/
def statusOfGroup (a : Alphabet) (g : List Byte) : Status := readStatus (groupResponse a g).status

/-- Packed values are read back lane by lane. -/
theorem leadingLanes_packLanes {g : List Byte} (h : g.length ≤ 5) : leadingLanes (packLanes g) g.length = g := by
  refine List.ext_getElem (length_leadingLanes _ _) fun i hi hg => ?_
  rw [length_leadingLanes] at hi
  simp [leadingLanes, lane_packLanes g (hi.trans_le h), hg]

/-- A DEC whose count is in range has a legal word (R75). -/
theorem decodeCmd_encode_dec {n : Count} (h : (Instr.dec n).WellFormed) : decodeCmd (encode (.dec n)) = .ok (.dec n) := by
  obtain ⟨hrsv, hn, hop⟩ := Laws.EncodedFields.dec n
  exact decodeCmd_eq_ok_iff_fields.2 ⟨hrsv, ⟨hop, hn⟩, h⟩

/-- DEC of the characters `g` (R146). -/
theorem decResponse_eq {n : Count} {s : State} {g : List Byte} (hn : n.val = g.length)
    (hg : leadingLanes s.ports.inLanes g.length = g) : decResponse n s = groupResponse s.alphabet g := by
  rw [decResponse, charOperand, groupResponse, hn, hg]
  cases symbolsOfChars s.alphabet g <;> rfl

/-- The command that DECODE_BUFFER issues for a group answers with `groupResponse`. -/
theorem issue_group {s : State} {g : List Byte} (hs : legalAlphabet s.alphabet = true) (hg : g.length ≤ 5) :
    issue (.dec (Fin.ofNat 8 g.length)) 0 (packLanes g) s = .next (s.answer (groupResponse s.alphabet g)) := by
  have hn : (Fin.ofNat 8 g.length).val = g.length := Nat.mod_eq_of_lt (by omega)
  have hwf : (Instr.dec (Fin.ofNat 8 g.length)).WellFormed := hn.trans_le hg
  rw [issue_of_legal hs (decodeCmd_encode_dec hwf), responseOf_legal hwf, legalResponse,
    decResponse_eq hn (leadingLanes_packLanes hg), State.present_alphabet]

/-- The digits after the given ones are 84 (R142). -/
theorem dec5_padGroup (ds : List Nat) (h : ds.length ≤ 5) : dec5 (padGroup ds) = GroupValue fun i => ds.getD i 84 := by
  match ds, h with
  | [], _ | [_], _ | [_, _], _ | [_, _, _], _ | [_, _, _, _], _ | [_, _, _, _, _], _ => rfl

/-- In a legal table the digits of a group are those that `symbolsOfChars` finds. -/
theorem symbolsOfChars_of_legal {a : Alphabet} (h : legalAlphabet a = true) {g : List Byte} {ds : List Nat} :
    symbolsOfChars a g = some ds ↔ List.Forall₂ (fun c d => a[d]? = some c) g ds := by
  simp only [symbolsOfChars_eq_some, char2sym_eq_some h]

/-- The overflow of R141 for a group whose characters all are in the table. -/
theorem groupOverflows_iff {a : Alphabet} (h : legalAlphabet a = true) {g : List Byte} {ds : List Nat}
    (hds : symbolsOfChars a g = some ds) : GroupOverflows a g ↔ Config.maxGroup < GroupValue fun i => ds.getD i 84 := by
  constructor
  · rintro ⟨es, hes, hlt⟩
    obtain rfl : ds = es := Option.some.inj (hds.symm.trans ((symbolsOfChars_of_legal h).2 hes))
    exact hlt
  · exact fun hlt => ⟨ds, (symbolsOfChars_of_legal h).1 hds, hlt⟩

/-- The first of R205's causes that applies to a group. -/
theorem groupResponse_status {a : Alphabet} (h : legalAlphabet a = true) {g : List Byte} (hg : g ≠ [] ∧ g.length ≤ 5)
    [Decidable (GroupOverflows a g)] :
    (groupResponse a g).status = (if ∃ c ∈ g, c ∉ a then Status.invalidCharacter
      else if g.length = 1 then .invalidLength
      else if GroupOverflows a g then .groupOverflow
      else .ok).code := by
  cases hds : symbolsOfChars a g with
  | none => simp [groupResponse, hds, symbolsOfChars_eq_none.1 hds]
  | some ds =>
    have hin : ¬ ∃ c ∈ g, c ∉ a := by simp [← symbolsOfChars_eq_none, hds]
    have hlen : ds.length ≤ 5 := ((symbolsOfChars_eq_some.1 hds).length_eq).symm.trans_le hg.2
    have h0 : g.length ≠ 0 := by simpa using hg.1
    rw [if_neg hin, groupResponse, hds, Option.elim_some, decodeGroup, if_neg h0, dec5_padGroup ds hlen]
    simp only [← groupOverflows_iff h hds]
    split_ifs <;> simp [Status.code]

@[simp] theorem readStatus_code (e : Status) : readStatus e.code = e := by cases e <;> rfl

theorem statusOfGroup_eq {a : Alphabet} (h : legalAlphabet a = true) {g : List Byte} (hg : g ≠ [] ∧ g.length ≤ 5)
    [Decidable (GroupOverflows a g)] :
    statusOfGroup a g = if ∃ c ∈ g, c ∉ a then .invalidCharacter
      else if g.length = 1 then .invalidLength
      else if GroupOverflows a g then .groupOverflow
      else .ok := by
  rw [statusOfGroup, groupResponse_status h hg, readStatus_code]

/-- A group has one status, the one that the host reads. -/
theorem groupStatus_iff {s : State} (h : legalAlphabet s.alphabet = true) {g : List Byte} (hg : g ≠ [] ∧ g.length ≤ 5)
    {e : Status} : GroupStatus s g e ↔ statusOfGroup s.alphabet g = e := by
  classical
  simp only [GroupStatus, issue_group h hg.2, Host.Outcome.next.injEq, exists_eq_left', State.answer_status]
  constructor
  · intro hst
    rw [statusOfGroup, hst, readStatus_code]
  · rintro rfl
    rw [groupResponse_status h hg, statusOfGroup_eq h hg]

/-! ### All groups: the highest priority -/

theorem priority_injective : Function.Injective Status.priority := by
  intro d e
  cases d <;> cases e <;> simp [Status.priority]

theorem higher_ok (e : Status) : e.higher .ok = e := by simp [Status.higher, Status.priority]

/-- `higher` is the maximum of two statuses (R173). -/
theorem higher_isMax (d e : Status) : (d.higher e = d ∨ d.higher e = e) ∧ d.priority ≤ (d.higher e).priority ∧
    e.priority ≤ (d.higher e).priority := by
  unfold Status.higher
  split_ifs with hlt
  · exact ⟨.inr rfl, hlt.le, le_rfl⟩
  · exact ⟨.inl rfl, le_rfl, not_lt.1 hlt⟩

/-- The status of highest priority in a list, OK when the list is empty. -/
def worstOf (es : List Status) : Status := es.foldl Status.higher .ok

/-- Folding `higher` from `w` gives `w` or a status of the list, and none of these is above it. -/
theorem foldl_higher (es : List Status) (w : Status) :
    es.foldl Status.higher w ∈ w :: es ∧ ∀ e ∈ w :: es, e.priority ≤ (es.foldl Status.higher w).priority := by
  induction es generalizing w with
  | nil => simp
  | cons d es ih =>
    obtain ⟨hone, hw, hd⟩ := higher_isMax w d
    obtain ⟨hin, hmax⟩ := ih (w.higher d)
    simp only [List.foldl_cons, List.mem_cons, forall_eq_or_imp] at hin hmax ⊢
    obtain ⟨hfirst, hrest⟩ := hmax
    refine ⟨?_, hw.trans hfirst, hd.trans hfirst, hrest⟩
    rcases hin with hin | hin
    · rw [hin, ← or_assoc]
      exact .inl hone
    · exact .inr (.inr hin)

/-- The failure of highest priority, when there is one (R174). -/
theorem worstOf_eq_iff {es : List Status} {e : Status} (he : e ≠ .ok) :
    worstOf es = e ↔ e ∈ es ∧ ∀ d ∈ es, d.priority ≤ e.priority := by
  obtain ⟨hin, hmax⟩ := foldl_higher es .ok
  constructor
  · rintro rfl
    exact ⟨(List.mem_cons.1 hin).resolve_left he, fun d hd => hmax d (.tail _ hd)⟩
  · rintro ⟨hmem, hle⟩
    refine priority_injective (le_antisymm ?_ (hmax e (.tail _ hmem)))
    rcases List.mem_cons.1 hin with hok | hin
    · exact (congrArg Status.priority hok).trans_le (Nat.zero_le _)
    · exact hle _ hin

theorem worstOf_eq_ok {es : List Status} (h : ∀ e ∈ es, e = .ok) : worstOf es = .ok :=
  (List.mem_cons.1 (foldl_higher es .ok).1).elim id (h _)

/-- The loop of DECODE_BUFFER keeps the highest status of the groups it has seen. -/
theorem decodeGroups_of_legal {gs : List (List Byte)} {w : Status} {out : List Byte} {s : State}
    (hs : legalAlphabet s.alphabet = true) (hgs : ∀ g ∈ gs, g.length ≤ 5) :
    ∃ t out', decodeGroups gs w out s = .next (t, (gs.map (statusOfGroup s.alphabet)).foldl Status.higher w, out') := by
  induction gs generalizing w out s with
  | nil => exact ⟨s, out, rfl⟩
  | cons g gs ih =>
    obtain ⟨hg, hgs⟩ := List.forall_mem_cons.1 hgs
    have hread : readStatus (s.answer (groupResponse s.alphabet g)).outputs.outStatus = statusOfGroup s.alphabet g := rfl
    rw [decodeGroups, issue_group hs hg, andThen_next, hread, List.map_cons, List.foldl_cons]
    split_ifs with hok
    · exact ih hs hgs
    · rw [not_not.1 hok, higher_ok]
      exact ih hs hgs

/-- The last line of DECODE_BUFFER: a failure is the worst status, which then is not OK (R175). -/
theorem bufferResult_eq_failure_iff {w e : Status} {out : List Byte} :
    (if w ≠ .ok then .failure w else .bytes out) = BufferResult.failure e ↔ e ≠ .ok ∧ w = e := by
  by_cases hw : w = .ok
  · simp [hw, eq_comm]
  · rw [if_pos hw, BufferResult.failure.injEq]
    exact (and_iff_right_of_imp fun heq => heq ▸ hw).symm

/-! ### The groups of a buffer -/

/-- The groups of an encoded buffer have 1 to 5 characters. -/
theorem length_of_mem_encodedGroups {b g : List Byte} (hg : g ∈ encodedGroups b) : g ≠ [] ∧ g.length ≤ 5 := by
  obtain ⟨i, hi⟩ := List.mem_iff_getElem?.1 hg
  obtain ⟨rfl, hne⟩ := encodedGroups_cutsEvery.group hi
  exact ⟨hne, List.length_take_le _ _⟩

/-- The characters of a buffer are those of its groups. -/
theorem mem_iff_mem_encodedGroups {b : List Byte} {c : Byte} : c ∈ b ↔ ∃ g ∈ encodedGroups b, c ∈ g := by
  rw [← List.mem_flatten, encodedGroups_cutsEvery.flatten]

/-- Only the last group can be short, and its length is the remainder. -/
theorem CutsEvery.exists_length_eq_iff {n : Nat} {f : List Byte → List (List Byte)} (h : CutsEvery n f) {m : Nat} (hm : 0 < m)
    (hmn : m < n) (b : List Byte) : (∃ g ∈ f b, g.length = m) ↔ b.length % n = m := by
  induction b using h.induction with
  | nil => simp [h.nil, hm.ne]
  | cut b hb ih =>
    rw [h.cut b hb, List.exists_mem_cons_iff, ih, List.length_take, List.length_drop]
    rcases Nat.lt_or_ge b.length n with hlt | hge
    · rw [Nat.min_eq_right hlt.le, Nat.sub_eq_zero_of_le hlt.le, Nat.zero_mod, Nat.mod_eq_of_lt hlt]
      exact or_iff_left hm.ne
    · rw [Nat.min_eq_left hge, ← Nat.mod_eq_sub_mod hge]
      exact or_iff_right hmn.ne'

/-- The status that DECODE_BUFFER has when its loop ends. -/
def bufferStatus (a : Alphabet) (b : List Byte) : Status := worstOf ((encodedGroups b).map (statusOfGroup a))

/-- All or nothing (R175). -/
theorem decodeBuffer_of_legal {s : State} (hs : legalAlphabet s.alphabet = true) (b : List Byte) :
    ∃ t out, decodeBuffer b s = .next (t, if bufferStatus s.alphabet b ≠ .ok then .failure (bufferStatus s.alphabet b)
      else .bytes out) := by
  obtain ⟨t, out, ht⟩ := decodeGroups_of_legal (w := .ok) (out := []) hs fun g hg => (length_of_mem_encodedGroups hg).2
  exact ⟨t, out, by rw [decodeBuffer, ht, andThen_next]; rfl⟩

/-- A buffer's failure is a group's, and no group's is higher. -/
theorem bufferStatus_eq_iff {a : Alphabet} {b : List Byte} {e : Status} (he : e ≠ .ok) :
    bufferStatus a b = e ↔ (∃ g ∈ encodedGroups b, statusOfGroup a g = e) ∧
      ∀ g ∈ encodedGroups b, (statusOfGroup a g).priority ≤ e.priority := by
  rw [bufferStatus, worstOf_eq_iff he, List.mem_map, List.forall_mem_map]

/-- The same, said of what the block answers for each group (R174). -/
theorem bufferStatus_eq_iff_groupStatus {s : State} (hs : legalAlphabet s.alphabet = true) {b : List Byte} {e : Status}
    (he : e ≠ .ok) : bufferStatus s.alphabet b = e ↔ (∃ g ∈ encodedGroups b, GroupStatus s g e) ∧
      ∀ g ∈ encodedGroups b, ∀ d, GroupStatus s g d → d.priority ≤ e.priority := by
  have hst {g} (hg : g ∈ encodedGroups b) {d} : GroupStatus s g d ↔ statusOfGroup s.alphabet g = d :=
    groupStatus_iff hs (length_of_mem_encodedGroups hg)
  rw [bufferStatus_eq_iff he]
  refine and_congr (exists_congr fun g => and_congr_right fun hg => (hst hg).symm) (forall₂_congr fun g hg => ?_)
  simp only [hst hg, forall_eq']

section
variable {a : Alphabet} {b : List Byte} (h : legalAlphabet a = true)
include h

theorem bufferStatus_of_invalid_character (hbad : ∃ c ∈ b, c ∉ a) : bufferStatus a b = .invalidCharacter := by
  classical
  obtain ⟨c, hc, hca⟩ := hbad
  obtain ⟨g, hg, hcg⟩ := mem_iff_mem_encodedGroups.1 hc
  refine (bufferStatus_eq_iff (by decide)).2 ⟨⟨g, hg, ?_⟩, fun g hg => ?_⟩
  · rw [statusOfGroup_eq h (length_of_mem_encodedGroups hg), if_pos ⟨c, hcg, hca⟩]
  · rw [statusOfGroup_eq h (length_of_mem_encodedGroups hg)]
    split_ifs <;> decide

variable (hin : ∀ c ∈ b, c ∈ a)
include hin

/-- With every character in the table, a group's status depends on its length and its value. -/
theorem statusOfGroup_of_alphabet {g : List Byte} (hg : g ∈ encodedGroups b) [Decidable (GroupOverflows a g)] :
    statusOfGroup a g = if g.length = 1 then .invalidLength else if GroupOverflows a g then .groupOverflow else .ok := by
  have hall : ¬ ∃ c ∈ g, c ∉ a := fun ⟨c, hc, hca⟩ => hca (hin c (mem_iff_mem_encodedGroups.2 ⟨g, hg, hc⟩))
  rw [statusOfGroup_eq h (length_of_mem_encodedGroups hg), if_neg hall]

theorem bufferStatus_of_stray_character (hlen : b.length % 5 = 1) : bufferStatus a b = .invalidLength := by
  classical
  obtain ⟨g, hg, hg1⟩ := (encodedGroups_cutsEvery.exists_length_eq_iff one_pos (by decide) b).2 hlen
  refine (bufferStatus_eq_iff (by decide)).2 ⟨⟨g, hg, ?_⟩, fun g hg => ?_⟩
  · rw [statusOfGroup_of_alphabet h hin hg, if_pos hg1]
  · rw [statusOfGroup_of_alphabet h hin hg]
    split_ifs <;> decide

variable (hlen : b.length % 5 ≠ 1)
include hlen

/-- With no stray character either, a group overflows or gives bytes. -/
theorem statusOfGroup_of_length {g : List Byte} (hg : g ∈ encodedGroups b) [Decidable (GroupOverflows a g)] :
    statusOfGroup a g = if GroupOverflows a g then .groupOverflow else .ok := by
  have hg1 : g.length ≠ 1 := fun hg1 =>
    hlen ((encodedGroups_cutsEvery.exists_length_eq_iff one_pos (by decide) b).1 ⟨g, hg, hg1⟩)
  rw [statusOfGroup_of_alphabet h hin hg, if_neg hg1]

theorem bufferStatus_of_overflow (hover : ∃ g ∈ encodedGroups b, GroupOverflows a g) :
    bufferStatus a b = .groupOverflow := by
  classical
  obtain ⟨g, hg, hgo⟩ := hover
  refine (bufferStatus_eq_iff (by decide)).2 ⟨⟨g, hg, ?_⟩, fun g hg => ?_⟩
  · rw [statusOfGroup_of_length h hin hlen hg, if_pos hgo]
  · rw [statusOfGroup_of_length h hin hlen hg]
    split_ifs <;> decide

theorem bufferStatus_of_no_failure (hfit : ∀ g ∈ encodedGroups b, ¬ GroupOverflows a g) : bufferStatus a b = .ok := by
  classical
  refine worstOf_eq_ok (List.forall_mem_map.2 fun g hg => ?_)
  rw [statusOfGroup_of_length h hin hlen hg, if_neg (hfit g hg)]

end

/-- Settles O46: the loop folds the statuses of the groups to the one of highest priority, and a group's status is the first of
R205's causes that applies to it. -/
theorem bufferFailureIsTheHighestPriority : Obligations.BufferFailureIsTheHighestPriority := by
  intro b s hs
  obtain ⟨t, out, ht⟩ := decodeBuffer_of_legal hs b
  refine ⟨t, _, ht, fun e => ?_, fun hbad => ?_, fun hin hlen => ?_, fun hin hlen hover => ?_, fun hin hlen hfit => ?_⟩
  · exact bufferResult_eq_failure_iff.trans (and_congr_right (bufferStatus_eq_iff_groupStatus hs))
  · rw [bufferStatus_of_invalid_character hs hbad]; rfl
  · rw [bufferStatus_of_stray_character hs hin hlen]; rfl
  · rw [bufferStatus_of_overflow hs hin hlen hover]; rfl
  · exact ⟨out, by rw [bufferStatus_of_no_failure hs hin hlen hfit]; rfl⟩

end Sys2Proof.Machine
end

section
/-! One rising edge by the cases of R231, and runs of reset edges (R232). -/

namespace Sys2Proof.Machine

/-- With a legal table, what the output ports show after a step is what `edgeState` wrote. -/
theorem edge_iff_of_legal {s : State} (h : legalAlphabet s.alphabet = true) {v : Bool} {st c : BitVec 3} {w : Word}
    {l : Lanes} : Edge s v st c w l ↔ (edgeState s).outputs = ⟨v, st, c, w, l⟩ := by
  simp [Edge, step_of_legal h]

@[simp] theorem State.outputs_cleared (s : State) : s.cleared.outputs = ⟨false, 0, 0, 0, 0⟩ := rfl

@[simp] theorem State.outputs_idled (s : State) : s.idled.outputs = ⟨false, s.status, s.count, s.word, s.lanes⟩ := rfl

/-- Settles O7: the four kinds of edge, each by its equation for `edgeState`. -/
theorem edgeFollowsTheStepRule : Obligations.EdgeFollowsTheStepRule := by
  intro s hs
  simp only [edge_iff_of_legal hs]
  refine ⟨fun hrst => ?_, fun hrst hvalid i hi => ⟨_, exec_of_legal hs i, ?_⟩, fun hrst hvalid e he => ?_,
    fun hrst hvalid => ?_, _, step_of_legal hs⟩
  · rw [edgeState_reset hrst, State.outputs_cleared]
  · rw [edgeState_command hrst hvalid hi]
    rfl
  · rw [edgeState_illegal hrst hvalid he, State.outputs_answer, raise_eq]
    rfl
  · rw [edgeState_idle hrst hvalid, State.outputs_idled]

/-- The last of `k + 1` edges of a legal configuration has the table as it was and one of the coming samples on the ports. -/
theorem edges_succ_of_legal (k : Nat) {s : State} (h : legalAlphabet s.alphabet = true) :
    ∃ t, edges (k + 1) s = .next (edgeState t).advance ∧ t.alphabet = s.alphabet ∧ t.ports ∈ ComingSamples s (k + 1) := by
  obtain ⟨t, ht, hta, htp⟩ := edges_of_legal k h
  refine ⟨t, ?_, hta, ?_⟩
  · rw [edges_succ, ht, andThen_next, step_of_legal (hta.symm ▸ h)]
  · rw [comingSamples_succ, htp]
    exact List.mem_append_right _ (List.mem_singleton_self _)

/-- Settles O9: the last edge of the run is a reset edge, and it clears the registers whatever they held and whatever command
is presented. -/
theorem resetEdgesClearAllRegisters : Obligations.ResetEdgesClearAllRegisters := by
  intro k s hs hrst
  obtain ⟨t, ht, hta, htp⟩ := edges_succ_of_legal k hs
  rw [edgeState_reset (hrst _ htp)] at ht
  exact ⟨_, ht, rfl, rfl, rfl, rfl, rfl, hta⟩

end Sys2Proof.Machine
end

section
/-! The edge that first defines the registers (R234): what a reset or a command writes is sound (R23, R206) and reads the table
and the ports alone (R30). -/

namespace Sys2Proof.Machine

/-! ### Trailing zeros (D9) -/

theorem trailingLanesZero_charLanes (a : Alphabet) (ds : List Nat) : TrailingLanesZero (charLanes a ds) ds.length :=
  fun i hi h => by rw [lane_charLanes a ds hi, if_neg (Nat.not_lt.2 h)]

theorem trailingLanesZero_digitLanes (ds : List Nat) : TrailingLanesZero (digitLanes ds) ds.length :=
  fun i hi h => by rw [lane_digitLanes ds hi, if_neg (Nat.not_lt.2 h)]

theorem trailingBytesZero_keepbytes (w : Word) (n : Nat) : TrailingBytesZero (keepbytes w n) n :=
  fun j hj h => by rw [byte_keepbytes w n hj, if_neg (Nat.not_lt.2 h)]

theorem trailingLanesZero_zero (n : Nat) : TrailingLanesZero 0 n := fun i _ _ => by simp [lane]

theorem trailingBytesZero_zero (n : Nat) : TrailingBytesZero 0 n := fun j _ _ => by simp [byte]

/-! ### Counts and codes in range (R23) -/

theorem Status.code_le (e : Status) : e.code.toNat ≤ 4 := by
  cases e <;> decide

theorem length_of_charOperand {n : Count} {s : State} {ds : List Nat} (h : charOperand n s = some ds) : ds.length = n.val :=
  (symbolsOfChars_eq_some.1 h).length_eq.symm.trans (length_leadingLanes _ _)

theorem length_of_digitOperand {n : Count} {s : State} {ds : List Nat} (h : digitOperand n s = some ds) :
    ds.length = n.val := by
  obtain ⟨-, rfl⟩ := symbolsOfDigits_eq_some.1 h
  rw [List.length_map, length_leadingLanes]

theorem encodedLength_le {n : Nat} (h : n ≤ 4) : encodedLength n ≤ 5 := by
  unfold encodedLength
  split <;> omega

/-! ### Sound answers (R206) -/

section
variable {s : State} (hs : legalAlphabet s.alphabet = true)
include hs

theorem inv_cleared : Inv s.cleared :=
  ⟨hs, by simp, by simp, fun _ => ⟨rfl, rfl, rfl⟩, .inl ⟨rfl, trailingLanesZero_zero _⟩⟩

/-- An error carries no data. -/
theorem inv_answer_raise (e : Status) : Inv (s.answer (raise e)) := by
  rw [raise_eq]
  exact ⟨hs, e.code_le, by simp, fun _ => ⟨rfl, rfl, rfl⟩, .inl ⟨rfl, trailingLanesZero_zero _⟩⟩

/-- A success with its result in LANES. -/
theorem inv_answer_lanes {n : Nat} {l : Lanes} (hn : n ≤ 5) (hl : TrailingLanesZero l n) :
    Inv (s.answer (complete .ok n 0 l)) := by
  have hc : (BitVec.ofNat 3 n).toNat = n := Nat.mod_eq_of_lt (by omega)
  rw [complete_ok]
  exact ⟨hs, by simp, hc.trans_le hn, fun h => absurd rfl h, .inl ⟨rfl, hc.symm ▸ hl⟩⟩

/-- A success with its result in WORD. -/
theorem inv_answer_word {n : Nat} {w : Word} (hn : n ≤ 4) (hw : TrailingBytesZero w n) :
    Inv (s.answer (complete .ok n w 0)) := by
  have hc : (BitVec.ofNat 3 n).toNat = n := Nat.mod_eq_of_lt (by omega)
  rw [complete_ok]
  exact ⟨hs, by simp, hc.trans_le (by omega), fun h => absurd rfl h, .inr ⟨rfl, hc.trans_le hn, hc.symm ▸ hw⟩⟩

theorem inv_answer_decodeGroup {k : Nat} (hk : k ≤ 5) (ds : List Nat) : Inv (s.answer (decodeGroup k ds)) := by
  unfold decodeGroup
  split_ifs
  · exact inv_answer_word hs (by omega) (trailingBytesZero_zero _)
  · exact inv_answer_raise hs _
  · exact inv_answer_raise hs _
  · exact inv_answer_word hs (by omega) (trailingBytesZero_keepbytes _ _)

theorem inv_answer_legalResponse {i : Instr} (hi : i.WellFormed) (u : State) : Inv (s.answer (legalResponse i u)) := by
  cases i with
  | enc n =>
    exact inv_answer_lanes hs (encodedLength_le hi) (length_encodeDigits n u hi ▸ trailingLanesZero_charLanes _ _)
  | encd n =>
    exact inv_answer_lanes hs (encodedLength_le hi) (length_encodeDigits n u hi ▸ trailingLanesZero_digitLanes _)
  | dec n | decd n =>
    simp only [legalResponse, decResponse, decdResponse]
    split
    · exact inv_answer_raise hs _
    · exact inv_answer_decodeGroup hs hi _
  | s2c n =>
    simp only [legalResponse, s2cResponse]
    split
    · exact inv_answer_raise hs _
    · next ds hd => exact inv_answer_lanes hs hi (length_of_digitOperand hd ▸ trailingLanesZero_charLanes _ _)
  | c2s n =>
    simp only [legalResponse, c2sResponse]
    split
    · exact inv_answer_raise hs _
    · next ds hd => exact inv_answer_lanes hs hi (length_of_charOperand hd ▸ trailingLanesZero_digitLanes _)

theorem inv_answer_responseOf (i : Instr) (u : State) : Inv (s.answer (responseOf i u)) := by
  unfold responseOf
  split
  · next hi => exact inv_answer_legalResponse hs hi u
  · exact inv_answer_raise hs _

/-- What an edge with a reset or a command writes is sound, whatever the registers held. -/
theorem inv_edgeState (h : s.ports.rst = true ∨ s.ports.cmdValid = true) : Inv (edgeState s) := by
  cases hrst : s.ports.rst with
  | true => exact edgeState_reset hrst ▸ inv_cleared hs
  | false =>
    have hvalid := h.resolve_left (by simp [hrst])
    cases hd : decodeCmd s.ports.cmd with
    | ok i => exact edgeState_command hrst hvalid hd ▸ inv_answer_responseOf hs i s
    | error e => exact edgeState_illegal hrst hvalid hd ▸ inv_answer_raise hs _

end

/-- Soundness speaks of the registers and the table, not of the host. -/
theorem Inv.advance {s : State} (h : Inv s) : Inv s.advance :=
  ⟨h.alphabet_legal, h.status_le, h.count_le, h.error_empty, h.one_result⟩

/-! ### The registers before do not matter (R234) -/

section
variable {s u : State} (ha : s.alphabet = u.alphabet) (hp : s.ports = u.ports) (hl : s.schedule = u.schedule)
include ha hp hl

theorem State.cleared_congr : s.cleared = u.cleared := by
  simp only [State.cleared, ha, hp, hl]

theorem State.answer_congr (r : Response) : s.answer r = u.answer r := by
  simp only [State.answer, ha, hp, hl]

/-- An edge with a reset or a command writes the same registers over any contents. -/
theorem edgeState_congr (h : u.ports.rst = true ∨ u.ports.cmdValid = true) : edgeState s = edgeState u := by
  cases hrst : u.ports.rst with
  | true => rw [edgeState_reset hrst, edgeState_reset (hp.symm ▸ hrst), State.cleared_congr ha hp hl]
  | false =>
    have hvalid := h.resolve_left (by simp [hrst])
    cases hd : decodeCmd u.ports.cmd with
    | ok i =>
      rw [edgeState_command hrst hvalid hd, edgeState_command (hp.symm ▸ hrst) (hp.symm ▸ hvalid) (hp.symm ▸ hd),
        responseOf_congr i ha hp, State.answer_congr ha hp hl]
    | error e =>
      rw [edgeState_illegal hrst hvalid hd, edgeState_illegal (hp.symm ▸ hrst) (hp.symm ▸ hvalid) (hp.symm ▸ hd),
        State.answer_congr ha hp hl]

end

/-- Settles O15: the edge overwrites all five registers, so its result is sound and the power-on contents leave no trace. -/
theorem firstEdgeDefinesAllRegisters : Obligations.FirstEdgeDefinesAllRegisters := by
  intro k a p later ha hp
  refine ⟨_, step_of_legal ha, (inv_edgeState ha hp).advance, fun s hsa hsp hsl => ?_⟩
  rw [step_of_legal (hsa.symm ▸ ha), edgeState_congr (u := State.powerOn k a p later) hsa hsp hsl hp]

end Sys2Proof.Machine
end

section
/-! The word of a command as a number (R70), and the encoder as the decoder's inverse (R75, R78). -/

namespace Sys2Proof.Machine

/-- The word of a command is `8 * N + OP`, whatever its count is. -/
theorem encode_toNat (i : Instr) : (encode i).toNat = 8 * i.count.val + i.opcode.toNat := by
  show (0b00#2 ++ (BitVec.ofFin i.count : BitVec 3) ++ i.opcode).toNat = _
  simp only [append_toNat, BitVec.toNat_ofFin, BitVec.toNat_ofNat]
  omega

theorem decodeCmd_encode {i : Instr} (h : i.WellFormed) : decodeCmd (encode i) = .ok i :=
  decodeCmd_eq_ok_iff.2 ⟨h, encode_toNat i⟩

theorem encode_of_decodeCmd {cmd : Byte} {i : Instr} (h : decodeCmd cmd = .ok i) : encode i = cmd :=
  BitVec.eq_of_toNat_eq ((encode_toNat i).trans (decodeCmd_eq_ok_iff.1 h).2.symm)

theorem wellFormed_of_decodeCmd {cmd : Byte} {i : Instr} (h : decodeCmd cmd = .ok i) : i.WellFormed :=
  (decodeCmd_eq_ok_iff.1 h).1

/-- The fields of every command's word (R70). -/
theorem encodedFields (i : Instr) : Laws.EncodedFields.Statement i := by
  cases i with
  | enc n => exact Laws.EncodedFields.enc n
  | dec n => exact Laws.EncodedFields.dec n
  | encd n => exact Laws.EncodedFields.encd n
  | decd n => exact Laws.EncodedFields.decd n
  | s2c n => exact Laws.EncodedFields.s2c n
  | c2s n => exact Laws.EncodedFields.c2s n

/-- The first two of R76's tests pass on the word of any command, so a count out of range is what the third one finds. -/
theorem decodeCmd_encode_countOutOfRange {i : Instr} (h : ¬ i.WellFormed) :
    decodeCmd (encode i) = .error .countOutOfRange := by
  obtain ⟨hrsv, hn, hop⟩ := encodedFields i
  have hmap : opcodeMap (opField (encode i)) (nField (encode i)) = some i := opcodeMap_eq_some_iff.2 ⟨hop, hn⟩
  simp [decodeCmd, hrsv, hmap, h]

/-- Settles O1: a word decodes to a command when it is the number `8 * N + OP` of it with N in range, and the encoder gives
that number. -/
theorem decodeAndEncodeAgree : Obligations.DecodeAndEncodeAgree :=
  ⟨fun _ => decodeCmd_encode, fun _ _ h => ⟨wellFormed_of_decodeCmd h, encode_of_decodeCmd h⟩,
    fun _ => decodeCmd_encode_countOutOfRange⟩

end Sys2Proof.Machine
end

section
/-! Runs of edges: a command's edge, safety, idle edges, the constant table, the refusal of an illegal one, and the invariant
(R28, R102, R231, R237). -/

namespace Sys2Proof.Machine

/-! ### The edge of a command -/

/-- An edge that accepts the word of `i` is `exec i`, in a legal configuration or not. -/
theorem clockEdge_command {s : State} {i : Instr} (h : s.ports.rst = false) (hv : s.ports.cmdValid = true)
    (hd : decodeCmd s.ports.cmd = .ok i) : clockEdge s = exec i s := by
  rw [clockEdge_eq, edgeState_command h hv hd, exec_eq]

theorem step_command {s : State} {i : Instr} (h : s.ports.rst = false) (hv : s.ports.cmdValid = true)
    (hd : decodeCmd s.ports.cmd = .ok i) : step s = andThen (exec i s) fun t => .next (HostMovesOn t) := by
  rw [step, clockEdge_command h hv hd]
  rfl

/-- A number that decodes is the word that `withFetchWord` puts on `cmd`. -/
theorem decodeCmd_of_decodeTableWord {w : Nat} {i : Instr} (h : decodeTableWord 8 w = some i) :
    decodeCmd (BitVec.ofNat 8 (w % 2 ^ 8)) = .ok i := by
  unfold decodeTableWord at h
  split at h
  next hw =>
    rw [Nat.mod_eq_of_lt (show w < 2 ^ 8 from hw.2)]
    cases hd : decodeCmd (BitVec.ofNat 8 w) with
    | ok j => rw [hd] at h; exact congrArg Except.ok (Option.some.inj h)
    | error e => rw [hd] at h; cases h
  next => cases h

/-- Settles O6: `clockEdge` takes the command's branch, and `withFetchWord` makes a state whose ports lead there. -/
theorem stepRunsTheDecodedCommand : Obligations.StepRunsTheDecodedCommand :=
  ⟨fun _ _ => step_command, fun _ _ _ h => step_command rfl rfl (decodeCmd_of_decodeTableWord h)⟩

/-! ### Legal tables go on, illegal ones are refused (R102) -/

theorem step_alphabet {s t : State} (h : step s = .next t) : t.alphabet = s.alphabet := by
  obtain ⟨-, rfl⟩ := step_eq_next.1 h
  rw [State.advance_alphabet, edgeState_alphabet]

/-- Settles O8, by induction on the number of edges: the next state's table is legal again. -/
theorem legalConfigurationNeverStops : Obligations.LegalConfigurationNeverStops := by
  intro k
  induction k with
  | zero => exact fun _ _ => trivial
  | succ k ih =>
    intro s hs
    have hstep := step_of_legal hs
    exact ⟨_, hstep, ih _ ((step_alphabet hstep).symm ▸ hs)⟩

/-- Settles O11, by induction on the number of edges. -/
theorem noEdgeWritesTheAlphabet : Obligations.NoEdgeWritesTheAlphabet := by
  intro k
  induction k with
  | zero =>
    rintro s t ⟨⟩
    rfl
  | succ k ih =>
    intro s t h
    obtain ⟨u, hu, ht⟩ := andThen_eq_next.1 h
    rw [ih u t ht, step_alphabet hu]

theorem exec_of_illegal {s : State} (h : legalAlphabet s.alphabet = false) (i : Instr) :
    exec i s = .refused .illegalAlphabet := by
  rw [exec_eq, configured_of_illegal h]

/-- Settles O12: the check of a configuration is R102's rule, and steps and commands answer according to it. -/
theorem illegalAlphabetIsRefused : Obligations.IllegalAlphabetIsRefused := by
  intro s
  refine ⟨fun h => ?_, fun h => ?_⟩
  · have hs : legalAlphabet s.alphabet = false := Bool.eq_false_iff.2 fun hs => h (legalAlphabet_iff.1 hs)
    exact ⟨step_of_illegal hs, exec_of_illegal hs⟩
  · have hs := legalAlphabet_iff.2 h
    exact ⟨⟨_, step_of_legal hs⟩, fun i => ⟨_, exec_of_legal hs i⟩⟩

/-! ### Idle edges (R237) -/

/-- Idle edges, any number of them, hold the four registers of the response. -/
theorem edges_idle (k : Nat) {s : State} (hs : legalAlphabet s.alphabet = true)
    (hidle : ∀ p ∈ ComingSamples s k, p.rst = false ∧ p.cmdValid = false) :
    ∃ t, edges k s = .next t ∧ t.status = s.status ∧ t.count = s.count ∧ t.word = s.word ∧ t.lanes = s.lanes := by
  induction k with
  | zero => exact ⟨s, rfl, rfl, rfl, rfl, rfl⟩
  | succ k ih =>
    simp only [comingSamples_succ, List.mem_append, List.mem_singleton, or_imp, forall_and, forall_eq] at hidle ih
    obtain ⟨⟨hrsts, hrst⟩, hvalids, hvalid⟩ := hidle
    obtain ⟨t, ht, hheld⟩ := ih ⟨hrsts, hvalids⟩
    obtain ⟨u, hu, hua, hup⟩ := edges_of_legal k hs
    obtain rfl : t = u := Host.Outcome.next.inj (ht.symm.trans hu)
    refine ⟨t.idled.advance, ?_, hheld⟩
    rw [edges_succ, ht, andThen_next, step_of_legal (hua.symm ▸ hs), edgeState_idle (hup ▸ hrst) (hup ▸ hvalid)]

/-- Settles O10: idle edges hold the response, and the last of them writes RSP_VALID with 0. -/
theorem idleEdgesHoldTheResponse : Obligations.IdleEdgesHoldTheResponse := by
  intro k s hs hidle
  obtain ⟨t, ht, hheld⟩ := edges_idle (k + 1) hs hidle
  obtain ⟨u, hu, -, hup⟩ := edges_succ_of_legal k hs
  obtain ⟨hrst, hvalid⟩ := hidle _ hup
  obtain rfl : t = (edgeState u).advance := Host.Outcome.next.inj (ht.symm.trans hu)
  refine ⟨_, ht, ?_, hheld⟩
  rw [edgeState_idle hrst hvalid, State.advance_rspValid, State.idled_rspValid]

/-! ### The invariant -/

/-- Settles O13, one register or port at a time. -/
theorem resetStateHoldsTheResetValues : Obligations.ResetStateHoldsTheResetValues :=
  ⟨rfl, rfl, rfl, rfl, rfl, rfl, rfl, rfl, rfl⟩

/-- Settles O14: the reset state is a cleared one with the default table. -/
theorem resetStateIsSound : Obligations.ResetStateIsSound :=
  inv_cleared (s := State.reset) defaultAlphabet_legal

/-- An idle edge writes RSP_VALID alone, of which soundness does not speak. -/
theorem Inv.idled {s : State} (h : Inv s) : Inv s.idled :=
  ⟨h.alphabet_legal, h.status_le, h.count_le, h.error_empty, h.one_result⟩

/-- Settles O2: an edge with a reset or a command writes sound registers whatever they were, and an idle one holds them. -/
theorem everyEdgeKeepsTheInvariant : Obligations.EveryEdgeKeepsTheInvariant := by
  intro s t hs hstep
  obtain ⟨hlegal, rfl⟩ := step_eq_next.1 hstep
  refine Inv.advance ?_
  by_cases h : s.ports.rst = true ∨ s.ports.cmdValid = true
  · exact inv_edgeState hlegal h
  · simp only [not_or, Bool.not_eq_true] at h
    exact edgeState_idle h.1 h.2 ▸ hs.idled

end Sys2Proof.Machine
end

section
/-! What every command does: one write of sound registers (R206), its frame (R73), COUNT (R27, R126), and that it reads the
selected bytes or lanes alone (R30, R31). -/

namespace Sys2Proof.Machine

/-! ### One write (R206) -/

/-- A response is what `Answers` says of the command, in a legal configuration. -/
theorem answers_of_legal {s : State} (hs : legalAlphabet s.alphabet = true) {i : Instr} {st c : Nat} {w : Word} {l : Lanes}
    (hr : responseOf i s = ⟨BitVec.ofNat 3 st, BitVec.ofNat 3 c, w, l⟩) : Answers (exec i s) s st c w l := by
  rw [exec_of_legal hs, hr]
  rfl

/-- The codes 0 to 4 all have a name (R200). -/
theorem Status.exists_code {c : BitVec 3} (h : c.toNat ≤ 4) : ∃ e : Status, e.code = c := by
  have hall : ∀ c : BitVec 3, c.toNat ≤ 4 →
      c ∈ [Status.ok, .invalidCharacter, .invalidLength, .groupOverflow, .illegalCommand].map Status.code := by decide
  obtain ⟨e, -, he⟩ := List.mem_map.1 (hall c h)
  exact ⟨e, he⟩

/-- A sound state has a named status, and no data beside an error. -/
theorem Inv.exists_status {s : State} (h : Inv s) :
    ∃ e : Status, s.status = e.code ∧ (e ≠ .ok → s.count = 0 ∧ s.word = 0 ∧ s.lanes = 0) := by
  obtain ⟨e, he⟩ := Status.exists_code h.status_le
  refine ⟨e, he.symm, fun hne => h.error_empty fun hok => hne ?_⟩
  rw [← readStatus_code e, he, hok, readStatus_code]

/-- An edge that accepts a word shows RSP_VALID = 1. -/
theorem edgeState_rspValid {s : State} (h : s.ports.rst = false) (hv : s.ports.cmdValid = true) :
    (edgeState s).rspValid = true := by
  simp [edgeState, h, hv]

/-- Settles O16: what a command or an accepted word writes is sound, and soundness has an error carry no data. -/
theorem everyCommandCompletesWithOneWrite : Obligations.EveryCommandCompletesWithOneWrite := by
  refine ⟨fun i s hs => ?_, fun s hs hrst hvalid => ?_⟩
  · have hinv := inv_answer_responseOf hs i s
    obtain ⟨e, he, hempty⟩ := hinv.exists_status
    simp only [State.answer_status, State.answer_count, State.answer_word, State.answer_lanes] at he hempty
    refine ⟨e, (responseOf i s).count.toNat, (responseOf i s).word, (responseOf i s).lanes, answers_of_legal hs ?_,
      hinv.count_le, fun hne => ?_⟩
    · rw [BitVec.ofNat_toNat, BitVec.ofNat_toNat, BitVec.setWidth_eq, BitVec.setWidth_eq, ← he]
    · obtain ⟨hc, hw, hl⟩ := hempty hne
      exact ⟨congrArg BitVec.toNat hc, hw, hl⟩
  · obtain ⟨e, he, hempty⟩ := (inv_edgeState hs (.inr hvalid)).exists_status
    refine ⟨e, _, _, _, (edge_iff_of_legal hs).2 ?_, hempty⟩
    rw [← he, ← edgeState_rspValid hrst hvalid]
    rfl

/-! ### An error, or a success with its result in one register (R27, R73) -/

/-- ENC, ENCD, S2C and C2S give lanes, DEC and DECD a word. -/
def GivesLanes : Instr → Bool
  | .enc _ | .encd _ | .s2c _ | .c2s _ => true
  | .dec _ | .decd _ => false

theorem decodeGroup_cases (k : Nat) (ds : List Nat) :
    (∃ e, e ≠ .ok ∧ decodeGroup k ds = raise e) ∨ ∃ w, decodeGroup k ds = complete .ok (k - 1) w 0 := by
  unfold decodeGroup
  split_ifs with h0
  · exact .inr ⟨0, by rw [h0]⟩
  · exact .inl ⟨_, by decide, rfl⟩
  · exact .inl ⟨_, by decide, rfl⟩
  · exact .inr ⟨_, rfl⟩

theorem raise_status (e : Status) : (raise e).status = e.code := by rw [raise_eq]

/-- Everything a command can answer: an error without data, or OK with COUNT by R27's table and one register zeroed. -/
theorem responseOf_cases (i : Instr) (s : State) :
    (∃ e, e ≠ .ok ∧ responseOf i s = raise e) ∨
    (i.WellFormed ∧ ∃ w l, responseOf i s = complete .ok (CountWhenOk i) w l ∧ if GivesLanes i then w = 0 else l = 0) := by
  by_cases hi : i.WellFormed
  · rw [responseOf_legal hi]
    simp only [hi, true_and]
    cases i with
    | enc n | encd n => exact .inr ⟨0, _, rfl, rfl⟩
    | dec n | decd n =>
      simp only [legalResponse, decResponse, decdResponse]
      split
      · exact .inl ⟨_, by decide, rfl⟩
      · exact (decodeGroup_cases _ _).imp_right fun ⟨w, hw⟩ => ⟨w, 0, hw, rfl⟩
    | s2c n | c2s n =>
      simp only [legalResponse, s2cResponse, c2sResponse]
      split
      · exact .inl ⟨_, by decide, rfl⟩
      · exact .inr ⟨0, _, rfl, rfl⟩
  · exact .inl ⟨_, by decide, responseOf_illegal hi s⟩

theorem responseOf_zeroed (i : Instr) (s : State) :
    if GivesLanes i then (responseOf i s).word = 0 else (responseOf i s).lanes = 0 := by
  obtain ⟨e, -, he⟩ | ⟨-, w, l, hr, hz⟩ := responseOf_cases i s
  · rw [he, raise_eq]
    split <;> rfl
  · rw [hr, complete_ok]
    exact hz

/-- Settles O17: `exec` writes the five registers over the state it is given, and one of them with 0. -/
theorem commandsLeaveAllElseAsItWas : Obligations.CommandsLeaveAllElseAsItWas := by
  intro i s t h
  obtain ⟨-, rfl⟩ := exec_eq_next.1 h
  refine ⟨rfl, rfl, rfl, rfl, ?_⟩
  have hz := responseOf_zeroed i s
  cases i <;> exact hz

/-! ### COUNT (R27, R126) -/

theorem Status.code_eq_zero {e : Status} : e.code = 0 ↔ e = .ok := by
  cases e <;> decide

/-- A count after OK fits COUNT. -/
theorem countWhenOk_lt {i : Instr} (h : i.WellFormed) : CountWhenOk i < 2 ^ 3 := by
  cases i with
  | enc n | encd n =>
    have : n.val ≤ 4 := h
    simp only [CountWhenOk]
    split <;> omega
  | dec n | decd n => exact (Nat.sub_le _ 1).trans_lt n.isLt
  | s2c n | c2s n => exact n.isLt

theorem responseOf_count {i : Instr} {s : State} (h : (responseOf i s).status = 0) :
    (responseOf i s).count.toNat = CountWhenOk i := by
  obtain ⟨e, hne, he⟩ | ⟨hi, w, l, hr, -⟩ := responseOf_cases i s
  · rw [he, raise_eq] at h
    exact absurd (Status.code_eq_zero.1 h) hne
  · rw [hr, complete_ok]
    exact Nat.mod_eq_of_lt (countWhenOk_lt hi)

/-- A sound state's register without a result is 0, so both registers are 0 from COUNT on. -/
theorem Inv.trailing_zeros {s : State} (h : Inv s) :
    TrailingLanesZero s.lanes s.count.toNat ∧ TrailingBytesZero s.word s.count.toNat := by
  obtain ⟨hw, hl⟩ | ⟨hl, -, hw⟩ := h.one_result
  · exact ⟨hl, hw ▸ trailingBytesZero_zero _⟩
  · exact ⟨hl ▸ trailingLanesZero_zero _, hw⟩

/-- A group of 1 to 3 bytes gives 2 to 4 characters or digits, the empty one none (R126). -/
theorem responseOf_count_short {i : Instr} {n : Count} (hi : i = .enc n ∨ i = .encd n) (hn : n.val ≤ 3) (s : State) :
    (responseOf i s).count ≠ 1 ∧ (responseOf i s).count ≠ 5 := by
  have hwf : i.WellFormed := by
    obtain rfl | rfl := hi <;> exact Nat.le_succ_of_le hn
  have hc : (responseOf i s).count = BitVec.ofNat 3 (encodedLength n.val) := by
    rw [responseOf_legal hwf]
    obtain rfl | rfl := hi <;> rfl
  have hall : ∀ m ≤ 3, BitVec.ofNat 3 (encodedLength m) ≠ 1 ∧ BitVec.ofNat 3 (encodedLength m) ≠ 5 := by decide
  exact hc ▸ hall n.val hn

/-- Settles O18: a success has the count of R27's table, and the rest is soundness. -/
theorem countFollowsTheTable : Obligations.CountFollowsTheTable := by
  intro i s t h
  obtain ⟨hs, rfl⟩ := exec_eq_next.1 h
  have hinv := inv_answer_responseOf hs i s
  obtain ⟨hl, hw⟩ := hinv.trailing_zeros
  exact ⟨responseOf_count, fun hne => (hinv.error_empty hne).1, hl, hw, fun n hi hn => responseOf_count_short hi hn s⟩

/-! ### The operands that are read (R30, R31) -/

theorem leadingLanes_congr {l m : Lanes} {n : Nat} (h : ∀ i < n, lane l i = lane m i) : leadingLanes l n = leadingLanes m n :=
  List.map_congr_left fun i hi => h i (List.mem_range.1 hi)

theorem keepbytes_congr {w x : Word} {n : Nat} (h : ∀ j < 4, j < n → byte w j = byte x j) : keepbytes w n = keepbytes x n := by
  refine word_ext fun j hj => ?_
  rw [byte_keepbytes w n hj, byte_keepbytes x n hj]
  split
  next hn => exact h j hj hn
  next => rfl

/-- The operand of a command is what its response reads beside the table. -/
theorem legalResponse_congr {i : Instr} (hi : i.WellFormed) {s u : State} (ha : u.alphabet = s.alphabet)
    (hop : SameOperand i s.ports u.ports) : legalResponse i u = legalResponse i s := by
  cases i with
  | enc n | encd n =>
    have hw : groupWord n u = groupWord n s := (keepbytes_congr hop).symm
    simp only [legalResponse, encResponse, encdResponse, encodeDigits, hw, ha]
  | dec n | c2s n =>
    have hn : n.val ≤ 5 := hi
    have hl := leadingLanes_congr fun i hin => hop i (hin.trans_le hn) hin
    simp only [legalResponse, decResponse, c2sResponse, charOperand, ← hl, ha]
  | decd n | s2c n =>
    have hn : n.val ≤ 5 := hi
    have hl := leadingLanes_congr fun i hin => hop i (hin.trans_le hn) hin
    simp only [legalResponse, decdResponse, s2cResponse, digitOperand, ← hl, ha]

theorem responseOf_congr_operand {i : Instr} {s u : State} (ha : u.alphabet = s.alphabet)
    (hop : SameOperand i s.ports u.ports) : responseOf i u = responseOf i s := by
  by_cases hi : i.WellFormed
  · rw [responseOf_legal hi, responseOf_legal hi, legalResponse_congr hi ha hop]
  · rw [responseOf_illegal hi, responseOf_illegal hi]

/-- An edge without a command reads `rst` and the registers. -/
theorem edgeState_outputs_congr {s u : State} (hout : u.outputs = s.outputs) (hrst : u.ports.rst = s.ports.rst)
    (hs : s.ports.cmdValid = false) (hu : u.ports.cmdValid = false) : (edgeState u).outputs = (edgeState s).outputs := by
  cases h : s.ports.rst with
  | true => rw [edgeState_reset h, edgeState_reset (hrst.trans h), State.outputs_cleared, State.outputs_cleared]
  | false =>
    rw [edgeState_idle h hs, edgeState_idle (hrst.trans h) hu]
    exact congrArg (fun o : OutPorts => { o with rspValid := false }) hout

/-- An edge that accepts a word reads the word and the operand it selects. -/
theorem edgeState_outputs_congr_command {s u : State} (ha : u.alphabet = s.alphabet) (hrst : s.ports.rst = false)
    (hvalid : s.ports.cmdValid = true) (hrst' : u.ports.rst = false) (hvalid' : u.ports.cmdValid = true)
    (hcmd : u.ports.cmd = s.ports.cmd) (hop : ∀ i, decodeCmd s.ports.cmd = .ok i → SameOperand i s.ports u.ports) :
    (edgeState u).outputs = (edgeState s).outputs := by
  cases hd : decodeCmd s.ports.cmd with
  | ok i =>
    rw [edgeState_command hrst hvalid hd, edgeState_command hrst' hvalid' (hcmd ▸ hd),
      responseOf_congr_operand ha (hop i hd)]
    rfl
  | error e =>
    rw [edgeState_illegal hrst hvalid hd, edgeState_illegal hrst' hvalid' (hcmd ▸ hd)]
    rfl

/-- Settles O19: responses and edges read the selected operand and the table alone. -/
theorem onlySelectedOperandsMatter : Obligations.OnlySelectedOperandsMatter := by
  refine ⟨fun i s u hs ha hop => ?_, fun s u hs ha hout hrst hv hv' => ?_, fun s u hs ha hr hv hr' hv' hcmd hop => ?_⟩
  · refine ⟨_, _, exec_of_legal hs i, exec_of_legal (ha.symm ▸ hs) i, ?_⟩
    rw [responseOf_congr_operand ha hop]
    rfl
  · exact ⟨_, _, step_of_legal hs, step_of_legal (ha.symm ▸ hs), edgeState_outputs_congr hout hrst hv hv'⟩
  · exact ⟨_, _, step_of_legal hs, step_of_legal (ha.symm ▸ hs),
      edgeState_outputs_congr_command ha hr hv hr' hv' hcmd hop⟩

end Sys2Proof.Machine
end

section
/-! The operands of a command as lists of symbol values (R73, R201), and what S2C and C2S make of them (R105 to R107). -/

namespace Sys2Proof.Machine

/-! ### Operands -/

theorem mem_leadingLanes {l : Lanes} {n : Nat} {c : Byte} : c ∈ leadingLanes l n ↔ ∃ i < n, lane l i = c := by
  simp [leadingLanes]

section
variable {n : Count} {s : State} {ds : List Nat}

/-- Digit lanes are read when all that N selects are at most 84. -/
theorem digitOperand_eq_some : digitOperand n s = some ds ↔
    (∀ i < n.val, (lane s.ports.inLanes i).toNat ≤ 84) ∧ ds = (leadingLanes s.ports.inLanes n.val).map BitVec.toNat := by
  simp [digitOperand, symbolsOfDigits_eq_some, mem_leadingLanes]

theorem digitOperand_eq_none : digitOperand n s = none ↔ ∃ i < n.val, 84 < (lane s.ports.inLanes i).toNat := by
  simp [digitOperand, symbolsOfDigits_eq_none, mem_leadingLanes]

theorem charOperand_eq_none : charOperand n s = none ↔ ∃ i < n.val, lane s.ports.inLanes i ∉ s.alphabet := by
  simp [charOperand, symbolsOfChars_eq_none, mem_leadingLanes]

theorem exists_charOperand (h : ∀ i < n.val, lane s.ports.inLanes i ∈ s.alphabet) : ∃ ds, charOperand n s = some ds := by
  refine Option.ne_none_iff_exists'.1 fun hnone => ?_
  obtain ⟨i, hi, hbad⟩ := charOperand_eq_none.1 hnone
  exact hbad (h i hi)

/-- Characters are read as their positions in a legal table. -/
theorem charOperand_eq_some (hs : legalAlphabet s.alphabet = true) : charOperand n s = some ds ↔
    ds.length = n.val ∧ ∀ i < n.val, s.alphabet[ds.getD i 0]? = some (lane s.ports.inLanes i) := by
  simp only [charOperand, symbolsOfChars_of_legal hs, List.forall₂_iff_get, length_leadingLanes, eq_comm (a := n.val)]
  refine and_congr_right fun hlen => forall_congr' fun i => ?_
  simp +contextual [leadingLanes, hlen]

theorem le_84_of_digitOperand (h : digitOperand n s = some ds) : ∀ d ∈ ds, d ≤ 84 := by
  obtain ⟨hle, rfl⟩ := digitOperand_eq_some.1 h
  simpa [mem_leadingLanes] using hle

theorem getD_of_digitOperand (h : digitOperand n s = some ds) {i : Nat} (hi : i < n.val) :
    ds.getD i 0 = (lane s.ports.inLanes i).toNat := by
  obtain ⟨-, rfl⟩ := digitOperand_eq_some.1 h
  simp [getElem?_leadingLanes _ hi]

theorem le_84_of_charOperand (hs : legalAlphabet s.alphabet = true) (h : charOperand n s = some ds) : ∀ d ∈ ds, d ≤ 84 := by
  obtain ⟨hlen, hget⟩ := (charOperand_eq_some hs).1 h
  intro d hd
  obtain ⟨i, hi, rfl⟩ := List.mem_iff_getElem.1 hd
  have := hget i (hlen ▸ hi)
  rw [List.getD_eq_getElem _ _ hi] at this
  exact le_84_of_getElem?_eq_some hs this

end

/-! ### Lanes that were written, read back (R107) -/

/-- Digits that were written as lanes are read as they were. -/
theorem digitOperand_digitLanes {n : Count} {s : State} {ds : List Nat} (hlen : ds.length = n.val) (hn : n.val ≤ 5)
    (hle : ∀ d ∈ ds, d ≤ 84) : digitOperand n (WithLanes s (digitLanes ds)) = some ds := by
  have hmap : (ds.map (BitVec.ofNat 8)).length = n.val := (List.length_map _).trans hlen
  have hlanes : leadingLanes (digitLanes ds) n.val = ds.map (BitVec.ofNat 8) := by
    rw [← hmap]
    exact leadingLanes_packLanes (hmap.trans_le hn)
  have hbyte : ∀ d ∈ ds, (BitVec.ofNat 8 d).toNat = d := fun d hd =>
    Nat.mod_eq_of_lt ((hle d hd).trans_lt (by decide))
  show symbolsOfDigits (leadingLanes (digitLanes ds) n.val) = some ds
  rw [hlanes, symbolsOfDigits_eq_some, List.forall_mem_map, List.map_map]
  exact ⟨fun d hd => (hbyte d hd).trans_le (hle d hd), ((List.map_congr_left hbyte).trans (List.map_id ds)).symm⟩

/-- The characters of a legal table at given symbol values stand for these values (R100, R101). -/
theorem symbolsOfChars_map_sym2char {a : Alphabet} (h : legalAlphabet a = true) {ds : List Nat} (hle : ∀ d ∈ ds, d ≤ 84) :
    symbolsOfChars a (ds.map (sym2char a)) = some ds := by
  rw [symbolsOfChars_of_legal h, List.forall₂_map_left_iff, List.forall₂_same]
  exact fun d hd => getElem?_sym2char h (hle d hd)

/-- Symbol values that were written as characters of a legal table are read as they were. -/
theorem charOperand_charLanes {n : Count} {s : State} {ds : List Nat} (hs : legalAlphabet s.alphabet = true)
    (hlen : ds.length = n.val) (hn : n.val ≤ 5) (hle : ∀ d ∈ ds, d ≤ 84) :
    charOperand n (WithLanes s (charLanes s.alphabet ds)) = some ds := by
  have hmap : (ds.map (sym2char s.alphabet)).length = n.val := (List.length_map _).trans hlen
  have hlanes : leadingLanes (charLanes s.alphabet ds) n.val = ds.map (sym2char s.alphabet) := by
    rw [← hmap]
    exact leadingLanes_packLanes (hmap.trans_le hn)
  show symbolsOfChars s.alphabet (leadingLanes (charLanes s.alphabet ds) n.val) = some ds
  rw [hlanes, symbolsOfChars_map_sym2char hs hle]

/-! ### Answers that hold for every command -/

section
variable {s : State} (hs : legalAlphabet s.alphabet = true)
include hs

theorem answers_illegal {i : Instr} (hi : ¬ i.WellFormed) : Answers (exec i s) s 4 0 0 0 := by
  refine answers_of_legal hs ?_
  rw [responseOf_illegal hi, raise_eq]
  rfl

theorem exec_wellFormed (i : Instr) (hi : i.WellFormed) : exec i s = .next (s.answer (legalResponse i s)) := by
  rw [exec_of_legal hs, responseOf_legal hi]

/-- The response to a lane out of alphabet or above 84 (R201). -/
theorem answers_invalidCharacter {i : Instr} (hi : i.WellFormed) (hr : legalResponse i s = raise .invalidCharacter) :
    Answers (exec i s) s 1 0 0 0 := by
  refine answers_of_legal hs ?_
  rw [responseOf_legal hi, hr, raise_eq]
  rfl

end

/-- The state after reset with the command `i` and its operands on the ports, in which the rules' examples are evaluated. -/
def operandState (i : Instr) (w : Word) (l : Lanes) : State := { State.reset with ports := Ports.command i w l }

/-- A command with the default table answers as in `operandState`, when the operand that it reads is the one there. -/
theorem answers_default {s : State} (i : Instr) {w : Word} {l : Lanes} (ha : s.alphabet = defaultAlphabet)
    (hop : SameOperand i (operandState i w l).ports s.ports) {st c : Nat} {w' : Word} {l' : Lanes}
    (hr : responseOf i (operandState i w l) = ⟨BitVec.ofNat 3 st, BitVec.ofNat 3 c, w', l'⟩) :
    Answers (exec i s) s st c w' l' :=
  answers_of_legal (ha.symm ▸ defaultAlphabet_legal) ((responseOf_congr_operand (s := operandState i w l) ha hop).trans hr)

/-- `in_lanes` given whole agrees in every lane. -/
theorem lanes_agree {s : State} {i : Instr} {w : Word} {l : Lanes} (h : s.ports.inLanes = l) (n : Count) :
    ∀ j < 5, j < n.val → lane (operandState i w l).ports.inLanes j = lane s.ports.inLanes j :=
  fun j _ _ => congrArg (lane · j) h.symm

/-- `in_word` given whole agrees in every byte. -/
theorem bytes_agree {s : State} {i : Instr} {w : Word} {l : Lanes} (h : s.ports.inWord = w) (n : Count) :
    ∀ j < 4, j < n.val → byte (operandState i w l).ports.inWord j = byte s.ports.inWord j :=
  fun j _ _ => congrArg (byte · j) h.symm

/-! ### S2C and C2S (R105, R106) -/

section
variable {n : Count} {s : State} {ds : List Nat} (hs : legalAlphabet s.alphabet = true) (hn : n.val ≤ 5)
include hs hn

theorem exec_s2c (hd : digitOperand n s = some ds) :
    exec (.s2c n) s = .next (s.answer (complete .ok n.val 0 (charLanes s.alphabet ds))) := by
  rw [exec_wellFormed hs (.s2c n) hn, legalResponse, s2cResponse, hd]

theorem exec_c2s (hd : charOperand n s = some ds) :
    exec (.c2s n) s = .next (s.answer (complete .ok n.val 0 (digitLanes ds))) := by
  rw [exec_wellFormed hs (.c2s n) hn, legalResponse, c2sResponse, hd]

theorem answers_s2c_invalid (hd : digitOperand n s = none) : Answers (exec (.s2c n) s) s 1 0 0 0 :=
  answers_invalidCharacter hs hn (by rw [legalResponse, s2cResponse, hd])

theorem answers_c2s_invalid (hd : charOperand n s = none) : Answers (exec (.c2s n) s) s 1 0 0 0 :=
  answers_invalidCharacter hs hn (by rw [legalResponse, c2sResponse, hd])

end

/-- Settles O24: S2C writes the table's entries at the lane values. -/
theorem symToCharCommandMapsTheLanes : Obligations.SymToCharCommandMapsTheLanes := by
  intro n s hs
  refine ⟨fun hn hle => ?_, fun hn hbad => answers_s2c_invalid hs hn (digitOperand_eq_none.2 hbad),
    fun hn => answers_illegal hs (Nat.not_le.2 hn), encode_toNat _, fun ha hl => ?_⟩
  · have hd := digitOperand_eq_some.2 ⟨hle, rfl⟩
    have hlen := length_of_digitOperand hd
    refine ⟨charLanes s.alphabet _, exec_s2c hs hn hd, fun i hi => ?_,
      fun i hi hni => trailingLanesZero_charLanes _ _ i hi (hlen.trans_le hni)⟩
    rw [lane_charLanes _ _ (hi.trans_le hn), if_pos (hlen.symm ▸ hi), getD_of_digitOperand hd hi]
    exact getElem?_sym2char hs (hle i hi)
  · exact answers_default (.s2c 5) (w := 0) ha (lanes_agree hl 5) (by decide)

/-- Settles O25: C2S writes the lanes' positions in the table. -/
theorem charToSymCommandMapsTheLanes : Obligations.CharToSymCommandMapsTheLanes := by
  intro n s hs
  refine ⟨fun hn hin => ?_, fun hn hbad => answers_c2s_invalid hs hn (charOperand_eq_none.2 hbad),
    fun hn => answers_illegal hs (Nat.not_le.2 hn), encode_toNat _, fun ha hl => ?_⟩
  · obtain ⟨ds, hd⟩ := exists_charOperand hin
    obtain ⟨hlen, hget⟩ := (charOperand_eq_some hs).1 hd
    refine ⟨digitLanes ds, exec_c2s hs hn hd, fun i hi => ?_,
      fun i hi hni => trailingLanesZero_digitLanes _ i hi (hlen.trans_le hni)⟩
    have hle := le_84_of_getElem?_eq_some hs (hget i hi)
    have hlane : (lane (digitLanes ds) i).toNat = ds.getD i 0 := by
      rw [lane_digitLanes _ (hi.trans_le hn), if_pos (hlen.symm ▸ hi)]
      exact Nat.mod_eq_of_lt (hle.trans_lt (by decide))
    rw [hlane]
    exact ⟨hle, hget i hi⟩
  · exact answers_default (.c2s 5) (w := 0) ha (lanes_agree hl 5) (by decide)

/-- Settles O26: what one command writes the other reads back as the same symbol values. -/
theorem symToCharAndCharToSymAreInverse : Obligations.SymToCharAndCharToSymAreInverse := by
  intro n s hs hn
  refine ⟨fun hle => ?_, fun hin => ?_⟩
  · have hd := digitOperand_eq_some.2 ⟨hle, rfl⟩
    have hlen := length_of_digitOperand hd
    have hback := charOperand_charLanes hs hlen hn (le_84_of_digitOperand hd)
    refine ⟨_, _, exec_s2c hs hn hd, exec_c2s hs hn hback, rfl, fun i hi => ?_⟩
    rw [State.answer_lanes, complete_ok, lane_digitLanes _ (hi.trans_le hn), if_pos (hlen.symm ▸ hi),
      getD_of_digitOperand hd hi, BitVec.ofNat_toNat, BitVec.setWidth_eq]
  · obtain ⟨ds, hd⟩ := exists_charOperand hin
    obtain ⟨hlen, hget⟩ := (charOperand_eq_some hs).1 hd
    have hback := digitOperand_digitLanes hlen hn (le_84_of_charOperand hs hd) (s := s)
    refine ⟨_, _, exec_c2s hs hn hd, exec_s2c hs hn hback, rfl, fun i hi => ?_⟩
    rw [State.answer_lanes, complete_ok, lane_charLanes _ _ (hi.trans_le hn), if_pos (hlen.symm ▸ hi)]
    exact sym2char_of_getElem? (hget i hi)

end Sys2Proof.Machine
end

section
/-! The place of bytes and lanes (R52, R53), the digits of a group integer (R120, R121), and what ENC and ENCD make of them (R123
to R125). -/

namespace Sys2Proof.Machine

/-- Settles O42, from the values of a concatenation and of an extracted byte. -/
theorem bytesAndLanesAreMostSignificantFirst : Obligations.BytesAndLanesAreMostSignificantFirst :=
  ⟨wordOfBytes_toNat, fun w j _ => byte_toNat w j, fun l i _ => lane_toNat l i⟩

/-! ### The digits (R120, R121) -/

/-- The first digit of a 32-bit value: 82 * 85^4 is the last multiple of 85^4 below 2^32 (R121). -/
theorem encDigit_zero_le {v : Nat} (h : v < 2 ^ 32) : encDigit v 0 ≤ 82 := by
  show v / 85 ^ 4 % 85 ≤ 82
  omega

/-- Settles O27: `dec5` of the digits is the value. -/
theorem encoderDigitsAreBase85 : Obligations.EncoderDigitsAreBase85 := by
  refine ⟨fun v hv => ?_, by decide⟩
  have hsum : dec5 (enc5 v) = v := dec5_enc5 (hv.trans (by decide))
  have hfirst : encDigit v 0 ≤ 82 := encDigit_zero_le hv
  refine ⟨_, _, _, _, _, rfl, rfl, rfl, rfl, by simp [encDigit, Config.radix], by simp [encDigit, Config.radix],
    hsum.symm, hfirst, ?_⟩
  omega

/-! ### The group that is encoded (R122) -/

/-- A word is the big-endian value of its bytes (R52). -/
theorem toNat_eq_bytes (w : Word) : w.toNat =
    (byte w 0).toNat * 256 ^ 3 + (byte w 1).toNat * 256 ^ 2 + (byte w 2).toNat * 256 + (byte w 3).toNat := by
  simp only [byte_toNat]
  omega

@[simp] theorem zeroPadded_zero (w : Word) : ZeroPadded 0 w = 0 := rfl

@[simp] theorem zeroPadded_succ (n : Nat) (w : Word) :
    ZeroPadded (n + 1) w = ZeroPadded n w + (byte w n).toNat * 256 ^ (3 - n) := by
  simp [ZeroPadded, List.range_succ]

/-- `keepbytes` keeps the zero-padded value. -/
theorem zeroPadded_eq (w : Word) {n : Nat} (hn : n ≤ 4) : ZeroPadded n w = (keepbytes w n).toNat := by
  rw [toNat_eq_bytes, byte_keepbytes w n (by decide), byte_keepbytes w n (by decide), byte_keepbytes w n (by decide),
    byte_keepbytes w n (by decide)]
  match n, hn with
  | 0, _ | 1, _ | 2, _ | 3, _ | 4, _ => simp

theorem le_84_of_mem_encodeDigits {n : Count} {s : State} : ∀ d ∈ encodeDigits n s, d ≤ 84 :=
  fun _ hd => le_84_of_mem_enc5 (List.mem_of_mem_take hd)

section
variable {n : Count} {s : State} (hs : legalAlphabet s.alphabet = true) (hn : n.val ≤ 4)

section
include hn

/-- The digit in place `i` of a group that is not empty, from the zero-padded value (R120, R122). -/
theorem getD_encodeDigits_zeroPadded (h0 : n.val ≠ 0) {i : Nat} (hi : i ≤ n.val) :
    (encodeDigits n s).getD i 0 = ZeroPadded n.val s.ports.inWord / 85 ^ (4 - i) % 85 := by
  rw [getD_encodeDigits hn (by simp [encodedLength, h0, Nat.lt_succ_of_le hi]), zeroPadded_eq _ hn]
  rfl

/-- Places without a digit come from the digit count on. -/
theorem length_encodeDigits_le {i : Nat} (h : n.val = 0 ∨ n.val < i) : (encodeDigits n s).length ≤ i := by
  rw [length_encodeDigits n s hn, encodedLength]
  split <;> omega

theorem lt_length_encodeDigits (h0 : n.val ≠ 0) {i : Nat} (hi : i ≤ n.val) : i < (encodeDigits n s).length := by
  rw [length_encodeDigits n s hn, encodedLength, if_neg h0]
  omega

/-- The first digit is at most 82; the empty group has none, and its lane 0 is 0. -/
theorem getD_zero_encodeDigits_le : (encodeDigits n s).getD 0 0 ≤ 82 := by
  by_cases h0 : n.val = 0
  · rw [List.getD_eq_default _ _ (length_encodeDigits_le hn (.inl h0))]
    omega
  · rw [getD_encodeDigits hn (by simp [encodedLength, h0])]
    exact encDigit_zero_le (groupWord n s).isLt

end

section
include hs hn

theorem exec_enc : exec (.enc n) s =
    .next (s.answer (complete .ok (encodedLength n.val) 0 (charLanes s.alphabet (encodeDigits n s)))) :=
  exec_wellFormed hs (.enc n) hn

theorem exec_encd : exec (.encd n) s =
    .next (s.answer (complete .ok (encodedLength n.val) 0 (digitLanes (encodeDigits n s)))) :=
  exec_wellFormed hs (.encd n) hn

/-- Lane `i` of ENC holds the character of digit `i`. -/
theorem getElem?_encodeDigits (h0 : n.val ≠ 0) {i : Nat} (hi : i ≤ n.val) :
    s.alphabet[(encodeDigits n s).getD i 0]? = some (lane (charLanes s.alphabet (encodeDigits n s)) i) := by
  have hlt := lt_length_encodeDigits hn h0 hi (s := s)
  have hmem : (encodeDigits n s).getD i 0 ∈ encodeDigits n s := by
    rw [List.getD_eq_getElem _ _ hlt]
    exact List.getElem_mem hlt
  rw [lane_charLanes _ _ (by omega), if_pos hlt]
  exact getElem?_sym2char hs (le_84_of_mem_encodeDigits _ hmem)

/-- The first character of a group is never the one of a symbol value above 82. -/
theorem first_character_ne (h0 : n.val ≠ 0) {d : Nat} (hd : 82 < d) :
    s.alphabet[d]? ≠ some (lane (charLanes s.alphabet (encodeDigits n s)) 0) := fun h => by
  have heq := symbol_unique_of_legal hs (getElem?_encodeDigits hs hn h0 (Nat.zero_le _)) h
  have hle := getD_zero_encodeDigits_le hn (s := s)
  omega

end

/-- Lane `i` of ENCD is digit `i`, or 0 where there is none. -/
theorem lane_digitLanes_encodeDigits {i : Nat} (hi : i < 5) :
    (lane (digitLanes (encodeDigits n s)) i).toNat = (encodeDigits n s).getD i 0 := by
  rw [lane_digitLanes _ hi]
  split
  next hlt =>
    rw [List.getD_eq_getElem _ _ hlt]
    exact Nat.mod_eq_of_lt ((le_84_of_mem_encodeDigits _ (List.getElem_mem hlt)).trans_lt (by decide))
  next hge => rw [List.getD_eq_default _ _ (Nat.le_of_not_lt hge)]; rfl

end

/-! ### ENC and ENCD (R123, R124) -/

/-- Settles O28: ENC writes the table's entries at the digits of the group. -/
theorem encodeCommandGivesCharacters : Obligations.EncodeCommandGivesCharacters := by
  intro n s hs
  refine ⟨fun hn => ⟨charLanes s.alphabet (encodeDigits n s), exec_enc hs hn, fun h0 i hi => ?_, fun i hi h => ?_,
    fun h0 => ?_⟩, fun hn => answers_illegal hs (Nat.not_le.2 hn), encode_toNat _, fun ha => ⟨?_, ?_, ?_⟩⟩
  · rw [← getD_encodeDigits_zeroPadded hn h0 hi]
    exact getElem?_encodeDigits hs hn h0 hi
  · exact trailingLanesZero_charLanes _ _ i hi (length_encodeDigits_le hn h)
  · exact ⟨first_character_ne hs hn h0 (by decide), first_character_ne hs hn h0 (by decide)⟩
  all_goals exact fun hw => answers_default (.enc 4) (l := 0) ha (bytes_agree hw 4) (by decide)

/-- Settles O29: ENCD writes the digits of the group. -/
theorem encodeDigitsCommandGivesDigits : Obligations.EncodeDigitsCommandGivesDigits := by
  intro n s hs
  refine ⟨fun hn => ⟨digitLanes (encodeDigits n s), exec_encd hs hn, fun h0 i hi => ?_, fun i hi h => ?_, ?_⟩,
    fun hn => answers_illegal hs (Nat.not_le.2 hn), encode_toNat _, fun hw => ?_⟩
  · rw [← getD_encodeDigits_zeroPadded hn h0 hi, lane_digitLanes_encodeDigits (by omega)]
  · exact trailingLanesZero_digitLanes _ i hi (length_encodeDigits_le hn h)
  · rw [lane_digitLanes_encodeDigits (by decide)]
    exact getD_zero_encodeDigits_le hn
  · refine answers_of_legal hs ?_
    rw [responseOf_legal (show (Instr.encd 4).WellFormed by decide), legalResponse, encdResponse, encodeDigits, groupWord, hw]
    decide

/-- Settles O30: the lanes that ENCD writes are the digits that S2C reads. -/
theorem encodeIsEncodeDigitsThenSymToChar : Obligations.EncodeIsEncodeDigitsThenSymToChar := by
  intro n s hs hn
  have hlen := length_encodeDigits n s hn
  have hle5 := encodedLength_le hn
  obtain ⟨u, hu, hstatus, hcount, hlanes⟩ : ∃ u, exec (.encd n) s = .next u ∧ u.status = 0 ∧
      u.count = BitVec.ofNat 3 (encodedLength n.val) ∧ u.lanes = digitLanes (encodeDigits n s) :=
    ⟨_, exec_encd hs hn, rfl, rfl, rfl⟩
  have hm : (Fin.ofNat 8 u.count.toNat).val = encodedLength n.val := by
    simp only [hcount, Fin.ofNat, BitVec.toNat_ofNat]
    omega
  have hback := digitOperand_digitLanes (s := s) (hlen.trans hm.symm) (hm.trans_le hle5) le_84_of_mem_encodeDigits
  rw [← hlanes] at hback
  exact ⟨_, u, _, exec_enc hs hn, hu, exec_s2c (s := WithLanes s u.lanes) hs (hm.trans_le hle5) hback, hstatus.symm,
    hcount.symm, rfl⟩

end Sys2Proof.Machine
end

section
/-! What DEC and DECD make of a group (R146, R147): the padded value, the errors and the bytes; the composition with C2S (R151), the
padding of partial groups (R104, R142), the round trips (R148, R149) and the limits (R150). -/

namespace Sys2Proof.Machine

/-! ### A group of digits -/

theorem decodeGroup_one (ds : List Nat) : decodeGroup 1 ds = raise .invalidLength := by
  rw [decodeGroup, if_neg one_ne_zero, if_pos rfl]

theorem decodeGroup_of_two_le {k : Nat} (h : 2 ≤ k) (ds : List Nat) : decodeGroup k ds =
    if Config.maxGroup < dec5 (padGroup ds) then raise .groupOverflow
    else complete .ok (k - 1) (keepbytes (BitVec.ofNat 32 (dec5 (padGroup ds))) (k - 1)) 0 := by
  rw [decodeGroup, if_neg (by omega), if_neg (by omega)]

/-- The value of five digits depends on places 0 to 4. -/
theorem groupValue_congr {d e : Nat → Nat} (h : ∀ j < 5, d j = e j) : GroupValue d = GroupValue e := by
  simp [GroupValue, h]

/-- The bytes of a group value that fits 32 bits. -/
theorem byte_keepbytes_ofNat {v : Nat} (hv : v ≤ 0xFFFFFFFF) (n : Nat) {j : Nat} (hj : j < 4) :
    (byte (keepbytes (BitVec.ofNat 32 v) n) j).toNat = if j < n then v / 256 ^ (3 - j) % 256 else 0 := by
  have hpow : 2 ^ (24 - 8 * j) = 256 ^ (3 - j) := by
    rw [show 24 - 8 * j = 8 * (3 - j) by omega, Nat.pow_mul]
  rw [byte_keepbytes _ n hj]
  split
  · rw [byte_toNat, BitVec.toNat_ofNat, Nat.mod_eq_of_lt (show v < 2 ^ 32 by omega), hpow]
  · rfl

/-- A command that answers `decodeGroup` of the digits `d`, 84 after the given ones, answers R141 and R143. -/
theorem decodesGroup_of_exec {i : Instr} {s : State} {k : Nat} {ds : List Nat} {d : Nat → Nat}
    (hexec : exec i s = .next (s.answer (decodeGroup k ds))) (hk : 2 ≤ k) (hlen : ds.length ≤ 5)
    (hd : ∀ j < 5, ds.getD j 84 = d j) : DecodesGroup (exec i s) s k d := by
  have hval : dec5 (padGroup ds) = GroupValue d := (dec5_padGroup ds hlen).trans (groupValue_congr hd)
  rw [hexec, decodeGroup_of_two_le hk, hval]
  refine ⟨fun hover => ?_, fun hfit => ⟨keepbytes (BitVec.ofNat 32 (GroupValue d)) (k - 1), ?_, ?_⟩⟩
  · rw [if_pos hover, raise_eq]
    rfl
  · rw [if_neg (Nat.not_lt.2 hfit)]
    rfl
  · exact fun j hj => byte_keepbytes_ofNat hfit _ hj

/-! ### DEC and DECD (R146, R147) -/

section
variable {k : Count} {s : State} {ds : List Nat} (hs : legalAlphabet s.alphabet = true) (hk : k.val ≤ 5)
include hs hk

theorem exec_dec (hd : charOperand k s = some ds) : exec (.dec k) s = .next (s.answer (decodeGroup k.val ds)) := by
  rw [exec_wellFormed hs (.dec k) hk, legalResponse, decResponse, hd]

theorem exec_decd (hd : digitOperand k s = some ds) : exec (.decd k) s = .next (s.answer (decodeGroup k.val ds)) := by
  rw [exec_wellFormed hs (.decd k) hk, legalResponse, decdResponse, hd]

theorem answers_dec_invalid (hd : charOperand k s = none) : Answers (exec (.dec k) s) s 1 0 0 0 :=
  answers_invalidCharacter hs hk (by rw [legalResponse, decResponse, hd])

theorem answers_decd_invalid (hd : digitOperand k s = none) : Answers (exec (.decd k) s) s 1 0 0 0 :=
  answers_invalidCharacter hs hk (by rw [legalResponse, decdResponse, hd])

end

/-- The empty group answers OK and zeros, for any opcode (R77). -/
theorem answers_emptyGroup {s : State} (hs : legalAlphabet s.alphabet = true) (i : Instr) (h : i.count.val = 0) :
    Answers (exec i s) s 0 0 0 0 :=
  (emptyGroupIsLegalForEveryOpcode i s hs (Fin.ext h)).2

/-- A group of one digit has no value (R144). -/
theorem answers_invalidLength {i : Instr} {s : State} {k : Nat} {ds : List Nat}
    (hexec : exec i s = .next (s.answer (decodeGroup k ds))) (hk : k = 1) : Answers (exec i s) s 2 0 0 0 := by
  rw [hexec, hk, decodeGroup_one, raise_eq]
  rfl

/-- The digits of a group of lanes, 84 after the last. -/
theorem getD_digits_pad (l : Lanes) (k j : Nat) :
    ((leadingLanes l k).map BitVec.toNat).getD j 84 = if j < k then (lane l j).toNat else 84 := by
  split
  next hjk => simp [getElem?_leadingLanes _ hjk]
  next hkj => simp [Nat.le_of_not_lt hkj]

/-- Settles O32: the characters' positions in the table are the digits of the group. -/
theorem decodeCommandGivesBytes : Obligations.DecodeCommandGivesBytes := by
  intro k s hs
  refine ⟨fun hk => answers_illegal hs (Nat.not_le.2 hk), fun hk hbad => answers_dec_invalid hs hk (charOperand_eq_none.2 hbad),
    answers_emptyGroup hs (.dec k), fun hk hin => ?_, fun h2 h5 d hd hpad => ?_, encode_toNat _,
    fun ha => ⟨fun hl => ?_, fun hl => ?_⟩⟩
  · have hall : ∀ i < k.val, lane s.ports.inLanes i ∈ s.alphabet := fun i hi => by
      obtain rfl : i = 0 := by omega
      exact hin
    obtain ⟨ds, hds⟩ := exists_charOperand hall
    exact answers_invalidLength (exec_dec hs (by omega) hds) hk
  · have hds : charOperand k s = some ((List.range k.val).map d) :=
      (charOperand_eq_some hs).2 ⟨by simp, fun i hi => by simpa [hi] using hd i hi⟩
    refine decodesGroup_of_exec (exec_dec hs h5 hds) h2 (by simpa using h5) fun j hj => ?_
    rcases Nat.lt_or_ge j k.val with hjk | hkj
    · simp [hjk]
    · simp [hkj, hpad j hj hkj]
  · exact answers_default (.dec 5) (w := 0) ha (lanes_agree hl 5) (by decide)
  · exact answers_default (.dec 5) (w := 0) ha (lanes_agree hl 5) (by decide)

/-- Settles O33: the lane values are the digits of the group. -/
theorem decodeDigitsCommandGivesBytes : Obligations.DecodeDigitsCommandGivesBytes := by
  intro k s hs
  refine ⟨fun hk => answers_illegal hs (Nat.not_le.2 hk),
    fun hk hbad => answers_decd_invalid hs hk (digitOperand_eq_none.2 hbad), answers_emptyGroup hs (.decd k), fun hk hle => ?_,
    fun h2 h5 hle => ?_, encode_toNat _, fun hl => ?_⟩
  · have hall : ∀ i < k.val, (lane s.ports.inLanes i).toNat ≤ 84 := fun i hi => by
      obtain rfl : i = 0 := by omega
      exact hle
    exact answers_invalidLength (exec_decd hs (by omega) (digitOperand_eq_some.2 ⟨hall, rfl⟩)) hk
  · refine decodesGroup_of_exec (exec_decd hs h5 (digitOperand_eq_some.2 ⟨hle, rfl⟩)) h2 (by simpa using h5) fun j _ => ?_
    exact getD_digits_pad _ _ j
  · refine answers_of_legal hs ?_
    rw [responseOf_legal (show (Instr.decd 5).WellFormed by decide), legalResponse, decdResponse, digitOperand, hl]
    decide

/-- Settles O34: the digits that C2S writes are those that DECD reads, and DEC decodes the same ones. -/
theorem decodeIsCharToSymThenDecodeDigits : Obligations.DecodeIsCharToSymThenDecodeDigits := by
  intro k s hs hk
  cases hd : charOperand k s with
  | none =>
    exact ⟨_, _, _, answers_dec_invalid hs hk hd, answers_c2s_invalid hs hk hd, exec_of_legal (s := WithLanes s 0) hs (.decd k),
      fun h => absurd h (show (1 : BitVec 3) ≠ 0 by decide), fun _ => ⟨rfl, rfl⟩⟩
  | some ds =>
    have hback := digitOperand_digitLanes (s := s) (length_of_charOperand hd) hk (le_84_of_charOperand hs hd)
    exact ⟨_, _, _, exec_dec hs hk hd, exec_c2s hs hk hd, exec_decd (s := WithLanes s (digitLanes ds)) hs hk hback,
      fun _ => rfl, fun h => absurd rfl h⟩

end Sys2Proof.Machine
end

section
/-! Partial groups and the limits of the decoder: padding with the maximum-value character (R104, R142), encoding and decoding a
group (R148, R149), and the largest accepted leading digits (R150). -/

namespace Sys2Proof.Machine

/-! ### The leading digits of a group (R142) -/

/-- The value of the `k` leading digits. -/
def LeadingValue (k : Nat) (d : Nat → Nat) : Nat := ((List.range k).map fun i => d i * 85 ^ (k - 1 - i)).sum

@[simp] theorem leadingValue_zero (d : Nat → Nat) : LeadingValue 0 d = 0 := rfl

@[simp] theorem leadingValue_succ (k : Nat) (d : Nat → Nat) : LeadingValue (k + 1) d = LeadingValue k d * 85 + d k := by
  have hweight : ∀ i ∈ List.range k, d i * 85 ^ (k - i) = d i * 85 ^ (k - 1 - i) * 85 := fun i hi => by
    rw [Nat.mul_assoc, ← Nat.pow_succ, show (k - 1 - i).succ = k - i by have := List.mem_range.1 hi; omega]
  simp [LeadingValue, List.range_succ, List.map_congr_left hweight, List.sum_map_mul_right]

theorem leadingValue_congr {k : Nat} {d e : Nat → Nat} (h : ∀ i < k, d i = e i) : LeadingValue k d = LeadingValue k e :=
  congrArg List.sum (List.map_congr_left fun i hi => by rw [h i (List.mem_range.1 hi)])

/-- `j` digits 84 after the leading ones. -/
theorem leadingValue_pad (k j : Nat) (d : Nat → Nat) :
    LeadingValue (k + j) (fun i => if i < k then d i else 84) = LeadingValue k d * 85 ^ j + (85 ^ j - 1) := by
  induction j with
  | zero => simpa using leadingValue_congr fun i hi => if_pos hi
  | succ j ih =>
    have hpos : 0 < 85 ^ j := Nat.pow_pos (by decide)
    rw [← Nat.add_assoc, leadingValue_succ, ih, if_neg (by omega), Nat.pow_succ, ← Nat.mul_assoc]
    omega

theorem groupValue_eq_leadingValue (d : Nat → Nat) : GroupValue d = LeadingValue 5 d := by
  simp only [GroupValue, leadingValue_succ, leadingValue_zero]
  omega

/-- A group is its leading digits followed by digits 84. -/
theorem groupValue_leading {k : Nat} (hk : k ≤ 5) (d : Nat → Nat) :
    GroupValue (fun i => if i < k then d i else 84) = LeadingValue k d * 85 ^ (5 - k) + (85 ^ (5 - k) - 1) := by
  rw [groupValue_eq_leadingValue, ← leadingValue_pad, Nat.add_sub_cancel' hk]

/-- The leading digits of `v` have the value `v` divided by the weight of the last of them. -/
theorem leadingValue_encDigit {v m : Nat} (hv : v < 85 ^ 5) (hm : m ≤ 5) : LeadingValue m (encDigit v) = v / 85 ^ (5 - m) := by
  induction m with
  | zero => exact (Nat.div_eq_of_lt hv).symm
  | succ m ih =>
    rw [leadingValue_succ, ih (Nat.le_of_succ_le hm), encDigit, show 5 - m = 4 - m + 1 by omega, Nat.pow_succ,
      ← Nat.div_div_eq_div_mul, show 5 - (m + 1) = 4 - m by omega, Config.radix, Nat.div_add_mod']

theorem getD_take_enc5 (v : Nat) {m j : Nat} (hj : j < 5) :
    ((enc5 v).take m).getD j 84 = if j < m then encDigit v j else 84 := by
  split
  next hjm => simp [enc5, hjm, hj, Config.groupDigits]
  next hmj => exact List.getD_eq_default _ _ ((List.length_take_le _ _).trans (Nat.le_of_not_lt hmj))

/-- Leading digits of `v` completed with 84 stand for the largest value with these leading digits. -/
theorem dec5_padGroup_take_enc5 {v m : Nat} (hv : v < 85 ^ 5) (hm : m ≤ 5) :
    dec5 (padGroup ((enc5 v).take m)) = v / 85 ^ (5 - m) * 85 ^ (5 - m) + (85 ^ (5 - m) - 1) := by
  rw [dec5_padGroup _ (by simp), groupValue_congr fun j hj => getD_take_enc5 v hj, groupValue_leading hm,
    leadingValue_encDigit hv hm]

/-! ### Encoding and decoding a group (R149) -/

/-- The padding changes the bytes after the group only: it adds less than the weight of the last byte of the group. -/
theorem padding_keeps_bytes {v n : Nat} (h1 : 1 ≤ n) (h4 : n ≤ 4) (hv : v < 2 ^ 32) (hz : v % 256 ^ (4 - n) = 0) :
    v / 85 ^ (4 - n) * 85 ^ (4 - n) + (85 ^ (4 - n) - 1) ≤ 0xFFFFFFFF ∧
    (v / 85 ^ (4 - n) * 85 ^ (4 - n) + (85 ^ (4 - n) - 1)) / 256 ^ (4 - n) * 256 ^ (4 - n) = v := by
  interval_cases n <;> simp only [Nat.reduceSub, Nat.reducePow] at hz ⊢ <;> omega

/-- The digits of a group of `n` bytes decode to the group. -/
theorem decodeGroup_take_enc5 {n : Nat} (h1 : 1 ≤ n) (h4 : n ≤ 4) (w : Word) :
    decodeGroup (n + 1) ((enc5 (keepbytes w n).toNat).take (n + 1)) = complete .ok n (keepbytes w n) 0 := by
  have hz : (keepbytes w n).toNat % 256 ^ (4 - n) = 0 := by
    rw [keepbytes_toNat w h4, Nat.mul_mod_left]
  have hlt := (keepbytes w n).isLt
  obtain ⟨hfit, hkeep⟩ := padding_keeps_bytes h1 h4 hlt hz
  have hval := dec5_padGroup_take_enc5 (hlt.trans (by decide)) (Nat.succ_le_succ h4)
  rw [show 5 - (n + 1) = 4 - n by omega] at hval
  rw [← hval] at hfit hkeep
  rw [decodeGroup_of_two_le (by omega), if_neg (Nat.not_lt.2 hfit), Nat.add_sub_cancel]
  congr 1
  apply BitVec.eq_of_toNat_eq
  rw [keepbytes_toNat _ h4, BitVec.toNat_ofNat, Nat.mod_eq_of_lt (Nat.lt_succ_of_le hfit), hkeep]

/-- DEC of the characters that ENC gives for a group answers the zero-padded group, in any state with the same table. -/
theorem exec_dec_encoded {n m : Count} {s u : State} (hs : legalAlphabet s.alphabet = true) (h1 : 1 ≤ n.val)
    (h4 : n.val ≤ 4) (hm : m.val = n.val + 1) :
    exec (.dec m) (WithLanes s (charLanes s.alphabet (encodeDigits n u))) =
      .next ((WithLanes s (charLanes s.alphabet (encodeDigits n u))).answer (complete .ok n.val (groupWord n u) 0)) := by
  have hlen : encodedLength n.val = n.val + 1 := if_neg (by omega)
  have hd := charOperand_charLanes (n := m) hs ((length_encodeDigits n u h4).trans (hlen.trans hm.symm)) (by omega)
    le_84_of_mem_encodeDigits
  have hgroup : decodeGroup m.val (encodeDigits n u) = complete .ok n.val (groupWord n u) 0 := by
    rw [hm, encodeDigits, hlen, groupWord, decodeGroup_take_enc5 h1 h4]
  exact hgroup ▸ exec_dec (s := WithLanes s (charLanes s.alphabet (encodeDigits n u))) hs (by omega) hd

/-- Settles O36: the digits that ENC writes as characters are the ones that DEC decodes. -/
theorem groupRoundTrip : Obligations.GroupRoundTrip := by
  intro n m s hs h1 h4 hm
  refine ⟨_, _, exec_enc hs h4, ?_, exec_dec_encoded hs h1 h4 hm, rfl, ?_, rfl⟩
  · show (BitVec.ofNat 3 (encodedLength n.val)).toNat = n.val + 1
    rw [encodedLength, if_neg (by omega), BitVec.toNat_ofNat]
    omega
  · show (BitVec.ofNat 3 n.val).toNat = n.val
    rw [BitVec.toNat_ofNat]
    omega

/-! ### Groups that are not canonical (R148) -/

theorem keepbytes_of_trailingBytesZero {w : Word} {n : Nat} (h : TrailingBytesZero w n) : keepbytes w n = w := by
  refine word_ext fun j hj => ?_
  rw [byte_keepbytes w n hj]
  split
  next => rfl
  next hn => exact (h j hj (Nat.le_of_not_lt hn)).symm

/-- The word of an accepted group of `n + 1` characters is a group of `n` bytes. -/
theorem keepbytes_of_dec_ok {k : Count} {s t : State} (h : exec (.dec k) s = .next t) (hok : t.status = 0) :
    keepbytes t.word (k.val - 1) = t.word := by
  obtain ⟨hs, rfl⟩ := exec_eq_next.1 h
  have hzero := (inv_answer_responseOf hs (.dec k) s).trailing_zeros.2
  have hcount : (responseOf (.dec k) s).count.toNat = k.val - 1 := responseOf_count hok
  rw [State.answer_count, hcount] at hzero
  exact keepbytes_of_trailingBytesZero hzero

/-- Settles O38: the word of an accepted group is zero-padded, so encoding and decoding it gives it back. -/
theorem acceptedPartialGroupsDecodeLikeTheCanonicalOne : Obligations.AcceptedPartialGroupsDecodeLikeTheCanonicalOne := by
  refine ⟨fun k n s t h2 h4 hk hexec hok => ?_, fun s ha hl => ?_, fun s ha hw => ?_⟩
  · have hs := (exec_eq_next.1 hexec).1
    have hword : groupWord n (WithWord s t.word) = t.word := by
      have hkeep := keepbytes_of_dec_ok hexec hok
      rwa [hk, Nat.add_sub_cancel] at hkeep
    exact ⟨_, _, exec_enc (s := WithWord s t.word) hs (by omega), exec_dec_encoded hs (by omega) (by omega) hk, rfl, hword⟩
  · obtain hl | hl := hl <;> exact answers_default (.dec 2) (w := 0) ha (lanes_agree hl 2) (by decide)
  · exact answers_default (.enc 1) (l := 0) ha (bytes_agree hw 1) (by decide)

/-! ### Padding with the maximum-value character (R104, R142) -/

theorem padGroup_of_length {ds : List Nat} (h : ds.length = 5) : padGroup ds = ds := by
  simp [padGroup, Config.groupDigits, h]

@[simp] theorem length_padGroup {ds : List Nat} (h : ds.length ≤ 5) : (padGroup ds).length = 5 := by
  simp [padGroup, Config.groupDigits, h]

theorem getD_padGroup {ds : List Nat} {i : Nat} (hi : i < 5) : (padGroup ds).getD i 0 = ds.getD i 84 := by
  rcases Nat.lt_or_ge i ds.length with hlt | hge
  · simp [padGroup, List.getElem?_append_left hlt, hlt]
  · simp [padGroup, List.getElem?_append_right hge, hge, Config.groupDigits, Config.padDigit,
      show i - ds.length < 5 - ds.length by omega]

@[simp] theorem keepbytes_zero (n : Nat) : keepbytes 0#32 n = 0 := BitVec.zero_and

/-- Keeping the leading bytes of a word that was kept whole. -/
theorem keepbytes_keepbytes {w : Word} {n m : Nat} (h : n ≤ m) : keepbytes (keepbytes w m) n = keepbytes w n := by
  refine word_ext fun j hj => ?_
  simp only [byte_keepbytes _ _ hj]
  split
  next hn => rw [if_pos (hn.trans_le h)]
  next => rfl

/-- Decoding digits is decoding the padded digits with only the leading bytes kept. -/
theorem decodeGroup_padGroup {k : Nat} (h2 : 2 ≤ k) {ds : List Nat} (hlen : ds.length ≤ 5) (h5 : k ≤ 5) :
    (decodeGroup k ds).status = (decodeGroup 5 (padGroup ds)).status ∧
    (decodeGroup k ds).word = keepbytes (decodeGroup 5 (padGroup ds)).word (k - 1) := by
  rw [decodeGroup_of_two_le h2, decodeGroup_of_two_le (by decide), padGroup_of_length (length_padGroup hlen)]
  split
  · simp
  · simp [keepbytes_keepbytes (show k - 1 ≤ 4 by omega)]

/-- Settles O35: the maximum-value character stands for the pad digit 84. -/
theorem partialGroupIsPaddedWithTheMaximumCharacter : Obligations.PartialGroupIsPaddedWithTheMaximumCharacter := by
  intro k s full hs h2 h4 hlead hpad
  refine ⟨(char2sym_eq_some hs).2 (getElem?_sym2char hs le_rfl), ?_⟩
  cases hd : charOperand k s with
  | none =>
    obtain ⟨i, hi, hbad⟩ := charOperand_eq_none.1 hd
    have hfull : charOperand 5 (WithLanes s full) = none :=
      charOperand_eq_none.2 ⟨i, by show i < 5; omega, (hlead i hi).symm ▸ hbad⟩
    refine ⟨_, _, answers_dec_invalid hs (by omega) hd, answers_dec_invalid (s := WithLanes s full) hs (by decide) hfull,
      rfl, (keepbytes_zero _).symm⟩
  | some ds =>
    obtain ⟨hlen, hget⟩ := (charOperand_eq_some hs).1 hd
    have hfull : charOperand 5 (WithLanes s full) = some (padGroup ds) := by
      refine (charOperand_eq_some (s := WithLanes s full) hs).2 ⟨length_padGroup (by omega), fun i (hi : i < 5) => ?_⟩
      rw [getD_padGroup hi]
      rcases Nat.lt_or_ge i k.val with hik | hki
      · rw [List.getD_eq_getElem _ _ (hlen.symm ▸ hik), ← List.getD_eq_getElem _ 0 (hlen.symm ▸ hik)]
        exact (hget i hik).trans (congrArg some (hlead i hik).symm)
      · rw [List.getD_eq_default _ _ (hlen.trans_le hki)]
        exact hpad i hi hki
    obtain ⟨hstatus, hword⟩ := decodeGroup_padGroup h2 (hlen.trans_le (by omega)) (by omega)
    have hexec : exec (.dec 5) (WithLanes s full) = .next ((WithLanes s full).answer (decodeGroup 5 (padGroup ds))) :=
      exec_dec (s := WithLanes s full) hs (by decide) hfull
    refine ⟨_, _, exec_dec hs (by omega) hd, hexec, ?_, ?_⟩
    · rw [State.answer_status, State.answer_status, hstatus]
    · rw [State.answer_word, State.answer_word, hword]

/-! ### The limits (R150) -/

/-- R150's limit for `k` digits. -/
def leadingLimit (k : Nat) : Nat := (2 ^ 32 - 1 - (85 ^ (5 - k) - 1)) / 85 ^ (5 - k)

/-- A padded group fits 32 bits when its leading digits are within the limit. -/
theorem le_leadingLimit_iff {k p : Nat} (h2 : 2 ≤ k) :
    p ≤ leadingLimit k ↔ p * 85 ^ (5 - k) + (85 ^ (5 - k) - 1) ≤ 0xFFFFFFFF := by
  have hpow : 85 ^ (5 - k) ≤ 85 ^ 3 := Nat.pow_le_pow_right (by decide) (by omega)
  rw [leadingLimit, Nat.le_div_iff_mul_le (Nat.pow_pos (by decide)), Nat.le_sub_iff_add_le (by omega)]
  rfl

/-- Settles O37: a group overflows when its padded value does, and that grows with its leading digits. -/
theorem overflowLimitsPerGroupLength : Obligations.OverflowLimitsPerGroupLength := by
  refine ⟨fun k s hs h2 h5 hle => ?_, by decide, by decide, by decide, by decide, by decide, by decide, by decide,
    by decide, fun s ha => ⟨?_, ?_, ?_, ?_, ?_, ?_, ?_, ?_⟩⟩
  · have hd := digitOperand_eq_some.2 ⟨hle, rfl⟩
    refine ⟨_, exec_decd hs h5 hd, ?_⟩
    have hval := (dec5_padGroup _ ((length_of_digitOperand hd).trans_le h5)).trans
      ((groupValue_congr fun j _ => getD_digits_pad s.ports.inLanes k.val j).trans (groupValue_leading h5 _))
    have hlimit := le_leadingLimit_iff (p := LeadingValue k.val fun i => (lane s.ports.inLanes i).toNat) h2
    rw [State.answer_status, decodeGroup_of_two_le h2, hval]
    split
    next hover =>
      rw [raise_status]
      exact ⟨iff_of_false (by decide) fun h => absurd (hlimit.1 h) (Nat.not_le.2 hover), fun _ => rfl⟩
    next hfit => exact ⟨iff_of_true rfl (hlimit.2 (Nat.not_lt.1 hfit)), fun h => absurd rfl h⟩
  all_goals exact fun hl => answers_default (.dec _) (w := 0) ha (lanes_agree hl _) (by decide)

end Sys2Proof.Machine
end

section
/-! The status of a command: the first of R205's causes that applies to it, and the three decode failures told apart (R213). -/

namespace Sys2Proof.Machine

/-! ### When a cause applies to a decode command (R201 to R203) -/

section
variable {n : Count} {s : State}

/-- N selects lanes of the five that there are. -/
theorem exists_selected_iff (hn : n.val ≤ 5) (p : Nat → Prop) : (∃ j < 5, j < n.val ∧ p j) ↔ ∃ j < n.val, p j :=
  ⟨fun ⟨j, _, hj⟩ => ⟨j, hj⟩, fun ⟨j, hj, hp⟩ => ⟨j, hj.trans_le hn, hj, hp⟩⟩

theorem badCharacter_iff (hn : n.val ≤ 5) :
    (∃ j < 5, j < n.val ∧ lane s.ports.inLanes j ∉ s.alphabet) ↔ charOperand n s = none :=
  (exists_selected_iff hn _).trans charOperand_eq_none.symm

theorem badDigit_iff (hn : n.val ≤ 5) :
    (∃ j < 5, j < n.val ∧ 84 < (lane s.ports.inLanes j).toNat) ↔ digitOperand n s = none :=
  (exists_selected_iff hn _).trans digitOperand_eq_none.symm

theorem causeApplies_invalidLength_dec : CauseApplies (.dec n) s .invalidLength ↔ n.val = 1 := by
  simp [CauseApplies, Fin.ext_iff]

theorem causeApplies_invalidLength_decd : CauseApplies (.decd n) s .invalidLength ↔ n.val = 1 := by
  simp [CauseApplies, Fin.ext_iff]

/-- The digits of a group of characters are the only ones that R203 can speak of. -/
theorem causeApplies_groupOverflow_dec (hs : legalAlphabet s.alphabet = true) (hn : n.val ≤ 5) {ds : List Nat}
    (hd : charOperand n s = some ds) :
    CauseApplies (.dec n) s .groupOverflow ↔ 2 ≤ n.val ∧ Config.maxGroup < dec5 (padGroup ds) := by
  obtain ⟨hlen, hget⟩ := (charOperand_eq_some hs).1 hd
  have hlow : ∀ j < n.val, ds.getD j 84 = ds.getD j 0 := fun j hj => by simp [hlen, hj]
  rw [dec5_padGroup ds (hlen.trans_le hn)]
  constructor
  · rintro ⟨h2, -, d, hdig, hpad, hover⟩
    refine ⟨h2, (groupValue_congr fun j hj => ?_) ▸ hover⟩
    rcases Nat.lt_or_ge j n.val with hjn | hnj
    · rw [hlow j hjn]
      exact symbol_unique_of_legal hs (hdig j hjn) (hget j hjn)
    · rw [hpad j hj hnj, List.getD_eq_default _ _ (hlen.trans_le hnj)]
  · rintro ⟨h2, hover⟩
    exact ⟨h2, hn, _, fun j hj => hlow j hj ▸ hget j hj, fun j _ hnj => List.getD_eq_default _ _ (hlen.trans_le hnj), hover⟩

theorem causeApplies_groupOverflow_decd (hn : n.val ≤ 5) {ds : List Nat} (hd : digitOperand n s = some ds) :
    CauseApplies (.decd n) s .groupOverflow ↔ 2 ≤ n.val ∧ Config.maxGroup < dec5 (padGroup ds) := by
  rw [dec5_padGroup ds ((length_of_digitOperand hd).trans_le hn)]
  obtain ⟨-, rfl⟩ := digitOperand_eq_some.1 hd
  simp only [getD_digits_pad]
  exact and_congr_right fun _ => and_iff_right hn

end

/-! ### The first cause (R205) -/

/-- The status of a group of digits: its length first, then its value. -/
theorem decodeGroup_status (k : Nat) (ds : List Nat) : (decodeGroup k ds).status =
    (if k = 1 then Status.invalidLength
      else if 2 ≤ k ∧ Config.maxGroup < dec5 (padGroup ds) then .groupOverflow
      else .ok).code := by
  match k with
  | 0 => rfl
  | 1 => rfl
  | k + 2 =>
    rw [decodeGroup_of_two_le (by omega), if_neg (show k + 2 ≠ 1 by omega)]
    simp only [Nat.le_add_left, true_and]
    split
    · exact raise_status _
    · rfl

/-- A command reports the first cause that applies to it, and OK when there is none. -/
theorem responseOf_status {i : Instr} {s : State} (hs : legalAlphabet s.alphabet = true)
    [∀ e, Decidable (CauseApplies i s e)] :
    (responseOf i s).status = (if CauseApplies i s .illegalCommand then Status.illegalCommand
      else if CauseApplies i s .invalidCharacter then .invalidCharacter
      else if CauseApplies i s .invalidLength then .invalidLength
      else if CauseApplies i s .groupOverflow then .groupOverflow
      else .ok).code := by
  by_cases hi : i.WellFormed
  case neg => rw [responseOf_illegal hi, raise_status, if_pos (show CauseApplies i s .illegalCommand from hi)]
  rw [responseOf_legal hi, if_neg (show ¬ CauseApplies i s .illegalCommand from not_not.2 hi)]
  cases i with
  | enc n | encd n => simp [CauseApplies, legalResponse, encResponse, encdResponse, Status.code]
  | dec n =>
    have hn : n.val ≤ 5 := hi
    have hbad : CauseApplies (.dec n) s .invalidCharacter ↔ charOperand n s = none := badCharacter_iff hi
    cases hd : charOperand n s with
    | none => rw [if_pos (hbad.2 hd), legalResponse, decResponse, hd, raise_status]
    | some ds =>
      rw [if_neg (hbad.not.2 (by simp [hd])), legalResponse, decResponse, hd, decodeGroup_status]
      simp only [causeApplies_invalidLength_dec, causeApplies_groupOverflow_dec hs hn hd]
  | decd n =>
    have hn : n.val ≤ 5 := hi
    have hbad : CauseApplies (.decd n) s .invalidCharacter ↔ digitOperand n s = none := badDigit_iff hi
    cases hd : digitOperand n s with
    | none => rw [if_pos (hbad.2 hd), legalResponse, decdResponse, hd, raise_status]
    | some ds =>
      rw [if_neg (hbad.not.2 (by simp [hd])), legalResponse, decdResponse, hd, decodeGroup_status]
      simp only [causeApplies_invalidLength_decd, causeApplies_groupOverflow_decd hn hd]
  | s2c n =>
    have hbad : CauseApplies (.s2c n) s .invalidCharacter ↔ digitOperand n s = none := badDigit_iff hi
    cases hd : digitOperand n s with
    | none => rw [if_pos (hbad.2 hd), legalResponse, s2cResponse, hd, raise_status]
    | some ds =>
      rw [if_neg (hbad.not.2 (by simp [hd])), legalResponse, s2cResponse, hd]
      simp [CauseApplies, Status.code]
  | c2s n =>
    have hbad : CauseApplies (.c2s n) s .invalidCharacter ↔ charOperand n s = none := badCharacter_iff hi
    cases hd : charOperand n s with
    | none => rw [if_pos (hbad.2 hd), legalResponse, c2sResponse, hd, raise_status]
    | some ds =>
      rw [if_neg (hbad.not.2 (by simp [hd])), legalResponse, c2sResponse, hd]
      simp [CauseApplies, Status.code]

/-- Settles O39: the first cause that applies is an applying one, and none before it applies. -/
theorem statusIsTheFirstCauseThatApplies : Obligations.StatusIsTheFirstCauseThatApplies := by
  classical
  refine ⟨rfl, rfl, rfl, rfl, rfl, fun i s hs => ⟨_, _, exec_of_legal hs i, responseOf_status hs, ?_⟩,
    fun s hs hrst hvalid hnone => (edge_iff_of_legal hs).2 ?_⟩
  · split_ifs with hill hbad hlen hover <;> simp [*]
  · cases hd : decodeCmd s.ports.cmd with
    | ok i => exact absurd hd (hnone i)
    | error e =>
      rw [edgeState_illegal hrst hvalid hd, State.outputs_answer, raise_eq]

/-- Settles O40: one example for each cause, and the codes are three numbers. -/
theorem decodeFailuresCanBeToldApart : Obligations.DecodeFailuresCanBeToldApart := by
  refine fun s ha => ⟨fun hl => ?_, fun hl => ?_, fun hl => ?_, by decide, by decide, by decide⟩
  · exact answers_default (.dec 1) (w := 0) ha (lanes_agree hl 1) (by decide)
  · exact answers_default (.dec 5) (w := 0) ha (lanes_agree hl 5) (by decide)
  · have hout : lane s.ports.inLanes 0 ∉ s.alphabet := by
      rw [hl, ha, mem_defaultAlphabet_iff]
      decide
    exact answers_dec_invalid (ha.symm ▸ defaultAlphabet_legal) (by decide) (charOperand_eq_none.2 ⟨0, by decide, hout⟩)

end Sys2Proof.Machine
end

section
/-! The host procedures (48_host_buffer_procedures.md) as functions of the table and the buffer: what each group gives, the lengths
(R172, R176), the alphabet (R178), and the round trip (R177). -/

namespace Sys2Proof.Machine

/-! ### What is around the registers -/

/-- `t` has the table, the ports and the plan of `s`. -/
def SameSurroundings (s t : State) : Prop := t.alphabet = s.alphabet ∧ t.ports = s.ports ∧ t.schedule = s.schedule

theorem SameSurroundings.refl (s : State) : SameSurroundings s s := ⟨rfl, rfl, rfl⟩

/-! ### ENCODE_BUFFER (R171) -/

/-- The characters that ENCODE_BUFFER appends for the group `g`: the digits of the zero-padded group, in the table. -/
def charsOfGroup (a : Alphabet) (g : List Byte) : List Byte :=
  ((enc5 (groupToWord 0 g).toNat).take (encodedLength g.length)).map (sym2char a)

/-- What ENCODE_BUFFER gives for the buffer `b`. -/
def encodedBuffer (a : Alphabet) (b : List Byte) : List Byte := (rawGroups b).flatMap (charsOfGroup a)

theorem length_charsOfGroup (a : Alphabet) {g : List Byte} (hg : g.length ≤ 4) :
    (charsOfGroup a g).length = encodedLength g.length := by
  simp [charsOfGroup, encodedLength_le hg]

/-- The bytes beside a group are not read (R122, R171). -/
theorem keepbytes_groupToWord (fill : Word) (g : List Byte) : keepbytes (groupToWord fill g) g.length = groupToWord 0 g := by
  refine word_ext fun j hj => ?_
  rw [byte_keepbytes _ _ hj, byte_groupToWord _ _ hj, byte_groupToWord _ _ hj]
  split
  next hlt => rw [List.getD_eq_getElem _ _ hlt, List.getD_eq_getElem _ _ hlt]
  next hge =>
    rw [List.getD_eq_default _ _ (Nat.le_of_not_lt hge)]
    exact (trailingBytesZero_zero 0 j hj (Nat.zero_le j)).symm

theorem ofNat_length {g : List Byte} (hg : g.length < 8) : (Fin.ofNat 8 g.length).val = g.length := Nat.mod_eq_of_lt hg

/-- The command that ENCODE_BUFFER issues for a group. -/
theorem issue_enc {s : State} (hs : legalAlphabet s.alphabet = true) (fill : Word) {g : List Byte} (hg : g.length ≤ 4) :
    issue (.enc (Fin.ofNat 8 g.length)) (groupToWord fill g) 0 s = .next (s.answer
      (complete .ok (encodedLength g.length) 0 (packLanes (charsOfGroup s.alphabet g)))) := by
  have hn := ofNat_length (g := g) (by omega)
  have hwf : (Instr.enc (Fin.ofNat 8 g.length)).WellFormed := hn.trans_le hg
  rw [issue_of_legal hs (decodeCmd_encode hwf), responseOf_legal hwf, legalResponse, encResponse, encodeDigits, groupWord, hn,
    State.present_ports, Ports.command_inWord, keepbytes_groupToWord]
  rfl

/-- The host reads back the lanes that the block packed. -/
theorem characters_packLanes (s : State) {cs : List Byte} (h : cs.length ≤ 5) :
    (s.answer (complete .ok cs.length 0 (packLanes cs))).outputs.characters = cs := by
  have hc : (BitVec.ofNat 3 cs.length).toNat = cs.length := Nat.mod_eq_of_lt (by omega)
  show leadingLanes (packLanes cs) (BitVec.ofNat 3 cs.length).toNat = cs
  rw [hc, leadingLanes_packLanes h]

theorem encodeGroups_of_legal (fill : Word) {gs : List (List Byte)} {out : List Byte} {s : State}
    (hs : legalAlphabet s.alphabet = true) (hgs : ∀ g ∈ gs, g.length ≤ 4) :
    ∃ t, encodeGroups fill gs out s = .next (t, out ++ gs.flatMap (charsOfGroup s.alphabet)) ∧ SameSurroundings s t := by
  induction gs generalizing out s with
  | nil => exact ⟨s, by rw [encodeGroups, List.flatMap_nil, List.append_nil], .refl s⟩
  | cons g gs ih =>
    obtain ⟨hg, hgs⟩ := List.forall_mem_cons.1 hgs
    have hlen := length_charsOfGroup s.alphabet hg
    rw [encodeGroups, issue_enc hs fill hg, andThen_next, ← hlen, characters_packLanes s (hlen.trans_le (encodedLength_le hg)),
      List.flatMap_cons, ← List.append_assoc]
    exact ih hs hgs

/-- The groups of a raw buffer have 1 to 4 bytes. -/
theorem length_of_mem_rawGroups {b g : List Byte} (hg : g ∈ rawGroups b) : g ≠ [] ∧ g.length ≤ 4 := by
  obtain ⟨i, hi⟩ := List.mem_iff_getElem?.1 hg
  obtain ⟨rfl, hne⟩ := rawGroups_cutsEvery.group hi
  exact ⟨hne, List.length_take_le _ _⟩

theorem encodeBuffer_of_legal (fill : Word) (b : List Byte) {s : State} (hs : legalAlphabet s.alphabet = true) :
    ∃ t, encodeBuffer fill b s = .next (t, encodedBuffer s.alphabet b) ∧ SameSurroundings s t :=
  encodeGroups_of_legal fill hs fun _ hg => (length_of_mem_rawGroups hg).2

/-! ### DECODE_BUFFER (R173) -/

/-- The bytes that DECODE_BUFFER appends for the group `g`, none when the group fails. -/
def bytesOfGroup (a : Alphabet) (g : List Byte) : List Byte :=
  leadingBytes (groupResponse a g).word (groupResponse a g).count.toNat

/-- What DECODE_BUFFER returns for the buffer `b` (R175). -/
def decodedBuffer (a : Alphabet) (b : List Byte) : BufferResult :=
  if bufferStatus a b ≠ .ok then .failure (bufferStatus a b) else .bytes ((encodedGroups b).flatMap (bytesOfGroup a))

/-- A group fails without data, or gives one byte fewer than it has characters (R143). -/
theorem groupResponse_cases (a : Alphabet) (g : List Byte) :
    (∃ e, e ≠ .ok ∧ groupResponse a g = raise e) ∨ ∃ w, groupResponse a g = complete .ok (g.length - 1) w 0 := by
  unfold groupResponse
  cases symbolsOfChars a g with
  | none => exact .inl ⟨_, by decide, rfl⟩
  | some ds => exact decodeGroup_cases _ _

theorem bytesOfGroup_of_error {a : Alphabet} {g : List Byte} (h : statusOfGroup a g ≠ .ok) : bytesOfGroup a g = [] := by
  obtain ⟨e, -, he⟩ | ⟨w, hw⟩ := groupResponse_cases a g
  · rw [bytesOfGroup, he, raise_eq]
    rfl
  · exact absurd (by rw [statusOfGroup, hw]; rfl) h

theorem length_bytesOfGroup {a : Alphabet} {g : List Byte} (h : statusOfGroup a g = .ok) (hg : g.length ≤ 5) :
    (bytesOfGroup a g).length = g.length - 1 := by
  obtain ⟨e, hne, he⟩ | ⟨w, hw⟩ := groupResponse_cases a g
  · rw [statusOfGroup, he, raise_status, readStatus_code] at h
    exact absurd h hne
  · rw [bytesOfGroup, length_leadingBytes, hw, complete_ok]
    exact Nat.mod_eq_of_lt (by omega)

theorem decodeGroups_of_legal_bytes {gs : List (List Byte)} {w : Status} {out : List Byte} {s : State}
    (hs : legalAlphabet s.alphabet = true) (hgs : ∀ g ∈ gs, g.length ≤ 5) :
    ∃ t, decodeGroups gs w out s = .next (t, (gs.map (statusOfGroup s.alphabet)).foldl Status.higher w,
      out ++ gs.flatMap (bytesOfGroup s.alphabet)) ∧ SameSurroundings s t := by
  induction gs generalizing w out s with
  | nil => exact ⟨s, by simp [decodeGroups], .refl s⟩
  | cons g gs ih =>
    obtain ⟨hg, hgs⟩ := List.forall_mem_cons.1 hgs
    have hread : readStatus (s.answer (groupResponse s.alphabet g)).outputs.outStatus = statusOfGroup s.alphabet g := rfl
    have hbytes : (s.answer (groupResponse s.alphabet g)).outputs.bytes = bytesOfGroup s.alphabet g := rfl
    rw [decodeGroups, issue_group hs hg, andThen_next, hread, hbytes, List.map_cons, List.foldl_cons, List.flatMap_cons]
    split_ifs with hok
    · rw [bytesOfGroup_of_error hok, List.nil_append]
      exact ih hs hgs
    · rw [not_not.1 hok, higher_ok, ← List.append_assoc]
      exact ih hs hgs

theorem decodeBuffer_of_legal_bytes (b : List Byte) {s : State} (hs : legalAlphabet s.alphabet = true) :
    ∃ t, decodeBuffer b s = .next (t, decodedBuffer s.alphabet b) ∧ SameSurroundings s t := by
  obtain ⟨t, ht, hsame⟩ := decodeGroups_of_legal_bytes (w := .ok) (out := []) hs
    fun g hg => (length_of_mem_encodedGroups hg).2
  exact ⟨t, by rw [decodeBuffer, ht, andThen_next]; rfl, hsame⟩

/-- Settles O45: both procedures are functions of the table and the buffer, and commands leave the rest as it was. -/
theorem bufferProceduresDependOnTheBufferAlone : Obligations.BufferProceduresDependOnTheBufferAlone := by
  intro fill fill' b s s' hs ha
  have hs' : legalAlphabet s'.alphabet = true := ha.symm ▸ hs
  refine ⟨?_, ?_⟩
  · obtain ⟨t, ht, hta, htp, htl⟩ := encodeBuffer_of_legal fill b hs
    obtain ⟨t', ht', -⟩ := encodeBuffer_of_legal fill' b hs'
    exact ⟨t, t', _, ht, ha ▸ ht', htp, htl, hta⟩
  · obtain ⟨t, ht, hta, htp, htl⟩ := decodeBuffer_of_legal_bytes b hs
    obtain ⟨t', ht', -⟩ := decodeBuffer_of_legal_bytes b hs'
    exact ⟨t, t', _, ht, ha ▸ ht', htp, htl, hta⟩

/-! ### What is given when the table may be illegal (R102) -/

theorem legal_of_issue {i : Instr} {w : Word} {l : Lanes} {s t : State} (h : issue i w l s = .next t) :
    legalAlphabet s.alphabet = true := (step_eq_next.1 h).1

/-- Only the empty buffer is encoded with an illegal table. -/
theorem encodeBuffer_eq_next {fill : Word} {b out : List Byte} {s t : State} (h : encodeBuffer fill b s = .next (t, out)) :
    out = encodedBuffer s.alphabet b ∧ (b ≠ [] → legalAlphabet s.alphabet = true) := by
  by_cases hb : b = []
  · subst hb
    cases h
    exact ⟨rfl, fun hne => absurd rfl hne⟩
  · have hs : legalAlphabet s.alphabet = true := by
      rw [encodeBuffer, rawGroups_cutsEvery.cut b hb, encodeGroups] at h
      obtain ⟨u, hu, -⟩ := andThen_eq_next.1 h
      exact legal_of_issue hu
    obtain ⟨u, hu, -⟩ := encodeBuffer_of_legal fill b hs
    cases h.symm.trans hu
    exact ⟨rfl, fun _ => hs⟩

/-- Only the empty buffer is decoded with an illegal table. -/
theorem decodeBuffer_eq_next {b : List Byte} {r : BufferResult} {s t : State} (h : decodeBuffer b s = .next (t, r)) :
    r = decodedBuffer s.alphabet b := by
  by_cases hb : b = []
  · subst hb
    cases h
    rfl
  · have hs : legalAlphabet s.alphabet = true := by
      rw [decodeBuffer, encodedGroups_cutsEvery.cut b hb, decodeGroups] at h
      obtain ⟨v, hv, -⟩ := andThen_eq_next.1 h
      obtain ⟨u, hu, -⟩ := andThen_eq_next.1 hv
      exact legal_of_issue hu
    obtain ⟨u, hu, -⟩ := decodeBuffer_of_legal_bytes b hs
    cases h.symm.trans hu
    rfl

/-! ### Lengths (R172, R176) -/

/-- When what a group gives has a length that depends on the group's, the whole has the one of the full groups and the rest. -/
theorem CutsEvery.length_flatMap {n : Nat} {f : List Byte → List (List Byte)} (h : CutsEvery n f) {F : List Byte → List Byte}
    {len : Nat → Nat} (h0 : len 0 = 0) {b : List Byte} (hF : ∀ g ∈ f b, (F g).length = len g.length) :
    ((f b).flatMap F).length = len n * (b.length / n) + len (b.length % n) := by
  have hn := h.pos
  induction b using h.induction with
  | nil => simp [h.nil, h0]
  | cut b hb ih =>
    rw [h.cut b hb, List.forall_mem_cons] at hF
    obtain ⟨hfirst, hrest⟩ := hF
    rw [h.cut b hb, List.flatMap_cons, List.length_append, hfirst, ih hrest, List.length_take, List.length_drop]
    rcases Nat.lt_or_ge b.length n with hlt | hge
    · simp [hlt, hlt.le, Nat.div_eq_of_lt, Nat.mod_eq_of_lt, h0]
    · rw [Nat.min_eq_left hge, ← Nat.mod_eq_sub_mod hge, Nat.div_eq_sub_div hn hge, Nat.mul_succ]
      omega

/-- Settles O44: a group of `k` bytes gives `encodedLength k` characters. -/
theorem encodedBufferLength : Obligations.EncodedBufferLength := by
  intro fill b s hs
  obtain ⟨t, ht, -⟩ := encodeBuffer_of_legal fill b hs
  have hlen : (encodedBuffer s.alphabet b).length = 5 * (b.length / 4) + encodedLength (b.length % 4) :=
    rawGroups_cutsEvery.length_flatMap rfl fun g hg => length_charsOfGroup _ (length_of_mem_rawGroups hg).2
  refine ⟨t, _, ht, hlen, ?_⟩
  rw [hlen, encodedLength]
  split <;> omega

/-- Bytes are returned when no group fails. -/
theorem bufferStatus_of_bytes {a : Alphabet} {b out : List Byte} (h : decodedBuffer a b = .bytes out) :
    bufferStatus a b = .ok ∧ out = (encodedGroups b).flatMap (bytesOfGroup a) := by
  unfold decodedBuffer at h
  split at h
  next => cases h
  next hok => exact ⟨not_not.1 hok, (BufferResult.bytes.inj h).symm⟩

theorem statusOfGroup_of_bufferStatus {a : Alphabet} {b : List Byte} (h : bufferStatus a b = .ok) {g : List Byte}
    (hg : g ∈ encodedGroups b) : statusOfGroup a g = .ok := by
  have hle : (statusOfGroup a g).priority ≤ (bufferStatus a b).priority :=
    (foldl_higher _ .ok).2 _ (.tail _ (List.mem_map_of_mem hg))
  rw [h] at hle
  exact priority_injective (Nat.le_zero.1 hle)

/-- A group of one character always fails (R144). -/
theorem statusOfGroup_of_length_one {a : Alphabet} {g : List Byte} (h : g.length = 1) : statusOfGroup a g ≠ .ok := by
  rw [statusOfGroup, groupResponse, h]
  cases symbolsOfChars a g with
  | none => decide
  | some ds => rw [Option.elim_some, decodeGroup_one]; decide

/-- Settles O47: with no failure every group of `k` characters gives `k - 1` bytes, and no group has one character. -/
theorem decodedBufferLength : Obligations.DecodedBufferLength := by
  intro b out s t h
  obtain ⟨hok, rfl⟩ := bufferStatus_of_bytes (decodeBuffer_eq_next h).symm
  have hgroup {g} (hg : g ∈ encodedGroups b) := statusOfGroup_of_bufferStatus hok hg
  refine ⟨fun hlen => ?_, ?_⟩
  · obtain ⟨g, hg, hg1⟩ := (encodedGroups_cutsEvery.exists_length_eq_iff one_pos (by decide) b).2 hlen
    exact statusOfGroup_of_length_one hg1 (hgroup hg)
  · have hlen := encodedGroups_cutsEvery.length_flatMap (len := (· - 1)) rfl fun g hg =>
      length_bytesOfGroup (hgroup hg) (length_of_mem_encodedGroups hg).2
    rw [hlen]
    split <;> omega

/-! ### The alphabet (R178) -/

theorem mem_alphabet_of_mem_charsOfGroup {a : Alphabet} (h : legalAlphabet a = true) {g : List Byte} {c : Byte}
    (hc : c ∈ charsOfGroup a g) : c ∈ a := by
  obtain ⟨d, hd, rfl⟩ := List.mem_map.1 hc
  exact List.mem_of_getElem? (getElem?_sym2char h (le_84_of_mem_enc5 (List.mem_of_mem_take hd)))

/-- Settles O48: characters are entries of the table, and a byte that is none makes its group fail. -/
theorem buffersStayInTheAlphabet : Obligations.BuffersStayInTheAlphabet := by
  refine ⟨fun fill b out s t h c hc => ?_, fun b c s hs hc hout => ?_⟩
  · obtain ⟨rfl, hlegal⟩ := encodeBuffer_eq_next h
    obtain ⟨g, hg, hcg⟩ := List.mem_flatMap.1 hc
    have hb : b ≠ [] := by
      rintro rfl
      cases hg
    exact mem_alphabet_of_mem_charsOfGroup (hlegal hb) hcg
  · obtain ⟨t, ht, -⟩ := decodeBuffer_of_legal_bytes b hs
    rw [decodedBuffer, bufferStatus_of_invalid_character hs ⟨c, hc, hout⟩] at ht
    exact ⟨t, ht⟩

/-! ### The round trip (R177) -/

/-- DEC answers the characters of a group with the group. -/
theorem groupResponse_charsOfGroup {a : Alphabet} (h : legalAlphabet a = true) {g : List Byte} (hg : g ≠ [] ∧ g.length ≤ 4) :
    groupResponse a (charsOfGroup a g) = complete .ok g.length (groupToWord 0 g) 0 := by
  have hpos := List.length_pos_iff.2 hg.1
  have hlen : encodedLength g.length = g.length + 1 := if_neg hpos.ne'
  have hdigits : symbolsOfChars a (charsOfGroup a g) = some ((enc5 (groupToWord 0 g).toNat).take (g.length + 1)) := by
    rw [charsOfGroup, hlen]
    exact symbolsOfChars_map_sym2char h fun d hd => le_84_of_mem_enc5 (List.mem_of_mem_take hd)
  have hgroup := decodeGroup_take_enc5 hpos hg.2 (groupToWord 0 g)
  rw [keepbytes_groupToWord] at hgroup
  rw [groupResponse, hdigits, Option.elim_some, length_charsOfGroup a hg.2, hlen, hgroup]

theorem leadingBytes_groupToWord (fill : Word) {g : List Byte} (hg : g.length ≤ 4) :
    leadingBytes (groupToWord fill g) g.length = g := by
  refine List.ext_getElem (length_leadingBytes _ _) fun j hj hjg => ?_
  simp [leadingBytes, byte_groupToWord fill g (hjg.trans_le hg), hjg]

theorem bytesOfGroup_charsOfGroup {a : Alphabet} (h : legalAlphabet a = true) {g : List Byte} (hg : g ≠ [] ∧ g.length ≤ 4) :
    bytesOfGroup a (charsOfGroup a g) = g := by
  have hc : (BitVec.ofNat 3 g.length).toNat = g.length := Nat.mod_eq_of_lt (by omega)
  rw [bytesOfGroup, groupResponse_charsOfGroup h hg, complete_ok, hc, leadingBytes_groupToWord 0 hg.2]

theorem statusOfGroup_charsOfGroup {a : Alphabet} (h : legalAlphabet a = true) {g : List Byte} (hg : g ≠ [] ∧ g.length ≤ 4) :
    statusOfGroup a (charsOfGroup a g) = .ok := by
  rw [statusOfGroup, groupResponse_charsOfGroup h hg]
  rfl

/-- The characters are cut where the bytes were: a full group gives five, and only the last group can give fewer. -/
theorem encodedGroups_encodedBuffer (a : Alphabet) (b : List Byte) :
    encodedGroups (encodedBuffer a b) = (rawGroups b).map (charsOfGroup a) := by
  induction b using rawGroups_cutsEvery.induction with
  | nil => rfl
  | cut b hb ih =>
    have hlen := length_charsOfGroup a (List.length_take_le 4 b)
    have hpos := List.length_pos_iff.2 hb
    have hne : charsOfGroup a (b.take 4) ≠ [] := by
      rw [← List.length_pos_iff, hlen, encodedLength, List.length_take]
      split <;> omega
    rw [encodedBuffer, rawGroups_cutsEvery.cut b hb, List.flatMap_cons, List.map_cons, ← ih, ← encodedBuffer,
      encodedGroups_cutsEvery.cut _ (List.append_ne_nil_of_left_ne_nil hne _)]
    rcases Nat.lt_or_ge b.length 4 with hlt | hge
    · rw [List.drop_eq_nil_of_le hlt.le]
      have hshort : (charsOfGroup a (b.take 4)).length ≤ 5 := hlen.trans_le (encodedLength_le (List.length_take_le 4 b))
      simp [encodedBuffer, rawGroups, encodedGroups, List.take_of_length_le hshort, List.drop_eq_nil_of_le hshort]
    · have hfull : (charsOfGroup a (b.take 4)).length = 5 := by
        rw [hlen, List.length_take, Nat.min_eq_left hge]
        rfl
      rw [List.take_left' hfull, List.drop_left' hfull]

theorem decodedBuffer_encodedBuffer {a : Alphabet} (h : legalAlphabet a = true) (b : List Byte) :
    decodedBuffer a (encodedBuffer a b) = .bytes b := by
  have hok : bufferStatus a (encodedBuffer a b) = .ok := by
    rw [bufferStatus, encodedGroups_encodedBuffer, List.map_map]
    exact worstOf_eq_ok (List.forall_mem_map.2 fun g hg => statusOfGroup_charsOfGroup h (length_of_mem_rawGroups hg))
  have hback : (rawGroups b).map (bytesOfGroup a ∘ charsOfGroup a) = rawGroups b :=
    (List.map_congr_left fun g hg => bytesOfGroup_charsOfGroup h (length_of_mem_rawGroups hg)).trans (List.map_id _)
  rw [decodedBuffer, hok, encodedGroups_encodedBuffer, List.flatMap_def, List.map_map, hback, rawGroups_cutsEvery.flatten]
  rfl

/-- Settles O3: the groups of the characters are the characters of the groups, and each of them decodes to its group. -/
theorem bufferRoundTrip : Obligations.BufferRoundTrip := by
  refine ⟨fun fill fill' b s hs => ?_, fun fill s ha => ?_⟩
  · obtain ⟨t, ht, hta, -⟩ := encodeBuffer_of_legal fill b hs
    obtain ⟨u, hu, hua, -⟩ := decodeBuffer_of_legal_bytes (encodedBuffer s.alphabet b) (hta.symm ▸ hs)
    obtain ⟨v, hv, -⟩ := encodeBuffer_of_legal fill' b (hua.trans hta ▸ hs)
    rw [hta, decodedBuffer_encodedBuffer hs] at hu
    rw [hua, hta] at hv
    exact ⟨t, u, v, _, ht, hu, hv⟩
  · have hs : legalAlphabet s.alphabet = true := ha.symm ▸ defaultAlphabet_legal
    obtain ⟨t, ht, hta, -⟩ := decodeBuffer_of_legal_bytes [0x35, 0x6D] hs
    obtain ⟨u, hu, -⟩ := encodeBuffer_of_legal fill [0x41] (hta.symm ▸ hs)
    rw [ha, show decodedBuffer defaultAlphabet [0x35, 0x6D] = .bytes [0x41] by decide] at ht
    rw [hta, ha, show encodedBuffer defaultAlphabet [0x41] = [0x35, 0x6C] by decide] at hu
    exact ⟨t, u, ht, hu⟩

end Sys2Proof.Machine
end

section
/-! Programs, one line an edge (R79), and systems of several blocks (R212). -/

namespace Sys2Proof.Machine

/-! ### Programs (R79) -/

/-- The lanes that a line gives lead, and the others are 0x00. -/
theorem lane_packLanes_eq_dite (vs : List Byte) {j : Nat} (hj : j < 5) :
    lane (packLanes vs) j = if h : j < vs.length then vs[j] else 0 := by
  rw [lane_packLanes vs hj]
  split
  next h => exact List.getD_eq_getElem _ _ h
  next h => exact List.getD_eq_default _ _ (Nat.le_of_not_lt h)

/-- After the edge of its first line the host is left with the rest of the program. -/
theorem loadProgram_of_step {l : Line} {ls : List Line} {s t : State} (h : step (s.loadProgram (l :: ls)) = .next t) :
    t.loadProgram ls = t := by
  obtain ⟨-, rfl⟩ := step_eq_next.1 h
  have hplan : (edgeState (s.loadProgram (l :: ls))).schedule = ls.map Line.ports := edgeState_schedule _
  rw [State.loadProgram, ← hplan]
  rfl

/-- Settles O49: a loaded program is the host's plan, which an edge moves on by one sample. -/
theorem programLinesRunOneAnEdge : Obligations.ProgramLinesRunOneAnEdge :=
  ⟨fun _ _ _ _ => loadProgram_of_step, fun _ _ => rfl, fun _ vs => ⟨rfl, rfl, rfl, fun _ => lane_packLanes_eq_dite vs⟩,
    fun _ _ => rfl, fun _ => rfl, rfl, rfl, rfl⟩

/-! ### Several blocks (R212) -/

/-- Settles O50: only the block's own entry of the list is written, with its own next state. -/
theorem blocksShareNoState : Obligations.BlocksShareNoState := by
  intro y k s hs hlegal
  have ht : (edgeState s).advance.alphabet = y.alphabet := by
    rw [State.advance_alphabet, edgeState_alphabet, System.unit_alphabet hs]
  refine ⟨_, _, step_of_legal ((System.unit_alphabet hs).symm ▸ hlegal), stepUnit_of_legal hs hlegal, List.length_set, ?_,
    fun j hj => ?_, rfl, fun j u => System.unit_alphabet⟩
  · rw [System.unit_set y k k hs ht, if_pos rfl]
  · rw [System.unit_set y k j hs ht, if_neg hj.symm]

/-- What an edge makes of a block, with the system's table `a`. -/
def edgeBlock (a : Alphabet) (b : Block) : Block := (edgeState (b.toState a)).advance.toBlock

/-- With a legal table an edge modifies one entry of the list of blocks, or none when there is no such block. -/
theorem stepUnit_eq_modify {y : System} (h : legalAlphabet y.alphabet = true) (k : Nat) :
    stepUnit k y = .next { y with blocks := y.blocks.modify k (edgeBlock y.alphabet) } := by
  rw [List.modify_eq_set_getElem?]
  cases hb : y.blocks[k]? with
  | none => exact stepUnit_of_none (by rw [System.unit, hb, Option.map_none])
  | some b => exact stepUnit_of_legal (by rw [System.unit, hb, Option.map_some]) h

/-- With an illegal table an edge is refused, or there is no such block. -/
theorem stepUnit_cases_of_illegal {y : System} (h : legalAlphabet y.alphabet = false) (k : Nat) :
    stepUnit k y = .next y ∨ stepUnit k y = .refused .illegalAlphabet := by
  cases hs : y.unit k with
  | none => exact .inl (stepUnit_of_none hs)
  | some s => exact .inr (stepUnit_of_illegal hs h)

/-- Settles O51: with a legal table two edges modify two entries of one list, and with an illegal one no edge changes anything. -/
theorem edgesOfTwoBlocksCommute : Obligations.EdgesOfTwoBlocksCommute := by
  intro y j k hjk
  cases hlegal : legalAlphabet y.alphabet with
  | true =>
    have hpair (i m : Nat) : andThen (stepUnit i y) (stepUnit m) = .next
        { y with blocks := (y.blocks.modify i (edgeBlock y.alphabet)).modify m (edgeBlock y.alphabet) } := by
      rw [stepUnit_eq_modify hlegal, andThen_next]
      exact stepUnit_eq_modify (y := { y with blocks := y.blocks.modify i (edgeBlock y.alphabet) }) hlegal m
    rw [hpair, hpair, List.modify_modify_ne _ _ _ hjk]
  | false =>
    rcases stepUnit_cases_of_illegal hlegal j with hj | hj <;> rcases stepUnit_cases_of_illegal hlegal k with hk | hk <;>
      simp [hj, hk]

end Sys2Proof.Machine
end
